-- ==== Sys2Proof/Word.lean ====
section
/-! DEFINITION. The word types of the register port and the two bit primitives every rule is written with
(spec/00_scope.md rules R6 to R8). -/

namespace Sys2Proof

/-- The 32-bit bus word (R28, R29). -/
abbrev Word := BitVec 32

/-- One byte of the input buffer, the plaintext or a substitution table (R17, R19, R25). -/
abbrev Byte := BitVec 8

/-- `v[i]` of R6. -/
abbrev bit {n : Nat} (v : BitVec n) (i : Nat) : Bool := v.getLsbD i

end Sys2Proof
end

