-- ==== Sys2Proof/Syntax.lean ====
section
/-! DEFINITION. The MRD command set, version 1: one constructor per row of spec/opcode_table.json
(30_encoding.md rule R41). -/

namespace Sys2Proof

/-- A command of R41. No command has a register operand; CNT of ROTI is the only immediate (R42). -/
inductive Instr where
  /-- OPC 0x0 (R71). -/
  | nop
  /-- OPC 0x1 (R48). -/
  | load
  /-- OPC 0x2 (R53). -/
  | rot
  /-- OPC 0x3 with its CNT field, 0 to 3 (R42, R54). -/
  | roti (cnt : BitVec 2)
  /-- OPC 0x4 (R55). -/
  | expand
  /-- OPC 0x5 (R56). -/
  | compress
  /-- OPC 0x6 (R57). -/
  | mix
  /-- OPC 0x7 (R63). -/
  | sbox
  /-- OPC 0x8 (R64). -/
  | pbox
  /-- OPC 0x9 (R58). -/
  | swap
  /-- OPC 0xA (R59). -/
  | round
  /-- OPC 0xB (R66). -/
  | finish
  /-- OPC 0xC (R68). -/
  | check
  /-- OPC 0xD (R69). -/
  | decode
  /-- OPC 0xE (R72). -/
  | clear
  /-- The reserved row, OPC 0xF: the whole word, whose bits 31:4 may be anything (R44). -/
  | reserved (w : Word)
  deriving DecidableEq, Repr

end Sys2Proof
end

