-- ==== Sys2Proof/WellFormed.lean ====
section
/-! DEFINITION. Which terms of `Instr` stand for a command word (spec/30_encoding.md rules R40 to R44). -/

namespace Sys2Proof

/-- The one check a term needs: a `reserved` word has OPC = 0xF (R44). The CNT of ROTI is 0 to 3 by its type (R42), and
no other command has an operand. -/
def Instr.wellFormed : Instr → Bool
  | .nop => true
  | .load => true
  | .rot => true
  | .roti _ => true
  | .expand => true
  | .compress => true
  | .mix => true
  | .sbox => true
  | .pbox => true
  | .swap => true
  | .round => true
  | .finish => true
  | .check => true
  | .decode => true
  | .clear => true
  | .reserved w => w.extractLsb' 0 4 == 0xF#4

end Sys2Proof
end

