-- ==== Sys2Proof/Decode.lean ====
section
/-! DEFINITION. The command decoder, total on every 32-bit word, and the encoder (spec/30_encoding.md rules R40 to R44,
spec/opcode_table.json). The unit decoded is the word of one CMD write: "one write is one command" (R40). -/

namespace Sys2Proof

/-- OPC, bits 3:0 (R40). -/
def opcField (w : Word) : BitVec 4 := w.extractLsb' 0 4

/-- CNT, bits 5:4 (R40). -/
def cntField (w : Word) : BitVec 2 := w.extractLsb' 4 2

/-- Z, bits 31:6 (R40). -/
def zField (w : Word) : BitVec 26 := w.extractLsb' 6 26

/-- `Legal(w)` of R43. -/
def legal (w : Word) : Bool :=
  opcField w != 0xF#4 &&
    (if opcField w == 0x3#4 then w.extractLsb' 6 26 == 0#26 else w.extractLsb' 4 28 == 0#28)

/-- Why a word is no command of R41 (its OPC being one of 0x0 to 0xE). The machine raises CmdError(1) for it (R44). -/
inductive DecodeError where
  /-- A bit of the must-be-zero field Z is set. -/
  | zNotZero
  /-- CNT is not 0 and the opcode is not ROTI's. -/
  | cntNotZero
  deriving DecidableEq, Repr

/-- The opcode map of R41. `cnt` is used by ROTI and `w` by the reserved row. -/
def commandOf (opc : BitVec 4) (cnt : BitVec 2) (w : Word) : Instr :=
  match opc.toNat with
  | 0x0 => .nop
  | 0x1 => .load
  | 0x2 => .rot
  | 0x3 => .roti cnt
  | 0x4 => .expand
  | 0x5 => .compress
  | 0x6 => .mix
  | 0x7 => .sbox
  | 0x8 => .pbox
  | 0x9 => .swap
  | 0xA => .round
  | 0xB => .finish
  | 0xC => .check
  | 0xD => .decode
  | 0xE => .clear
  | _ => .reserved w

/-- The decoder. A word with OPC = 0xF is the reserved row's, whatever its other bits (R44); for the other opcodes Z must
be 0, and CNT too unless the opcode is ROTI's (R40, R43). -/
def decodeWord (w : Word) : Except DecodeError Instr :=
  if opcField w = 0xF#4 then .ok (.reserved w)
  else if zField w ≠ 0#26 then .error .zNotZero
  else if opcField w ≠ 0x3#4 ∧ cntField w ≠ 0#2 then .error .cntNotZero
  else .ok (commandOf (opcField w) (cntField w) w)

/-- The word of a command: the `encoding` column of spec/opcode_table.json. -/
def encode : Instr → Word
  | .nop => 0x00000000#32
  | .load => 0x00000001#32
  | .rot => 0x00000002#32
  | .roti cnt => 0#26 ++ cnt ++ 0x3#4
  | .expand => 0x00000004#32
  | .compress => 0x00000005#32
  | .mix => 0x00000006#32
  | .sbox => 0x00000007#32
  | .pbox => 0x00000008#32
  | .swap => 0x00000009#32
  | .round => 0x0000000A#32
  | .finish => 0x0000000B#32
  | .check => 0x0000000C#32
  | .decode => 0x0000000D#32
  | .clear => 0x0000000E#32
  | .reserved w => w

/-- A row of spec/opcode_table.json: a word w is the row's when `w &&& mask = pattern`. -/
structure OpcodeRow where
  pattern : Word
  mask : Word
  deriving DecidableEq, Repr

/-- The row of a command, its `match` and `mask` columns. -/
def Instr.row : Instr → OpcodeRow
  | .nop => ⟨0x00000000#32, 0xFFFFFFFF#32⟩
  | .load => ⟨0x00000001#32, 0xFFFFFFFF#32⟩
  | .rot => ⟨0x00000002#32, 0xFFFFFFFF#32⟩
  | .roti _ => ⟨0x00000003#32, 0xFFFFFFCF#32⟩
  | .expand => ⟨0x00000004#32, 0xFFFFFFFF#32⟩
  | .compress => ⟨0x00000005#32, 0xFFFFFFFF#32⟩
  | .mix => ⟨0x00000006#32, 0xFFFFFFFF#32⟩
  | .sbox => ⟨0x00000007#32, 0xFFFFFFFF#32⟩
  | .pbox => ⟨0x00000008#32, 0xFFFFFFFF#32⟩
  | .swap => ⟨0x00000009#32, 0xFFFFFFFF#32⟩
  | .round => ⟨0x0000000A#32, 0xFFFFFFFF#32⟩
  | .finish => ⟨0x0000000B#32, 0xFFFFFFFF#32⟩
  | .check => ⟨0x0000000C#32, 0xFFFFFFFF#32⟩
  | .decode => ⟨0x0000000D#32, 0xFFFFFFFF#32⟩
  | .clear => ⟨0x0000000E#32, 0xFFFFFFFF#32⟩
  | .reserved _ => ⟨0x0000000F#32, 0x0000000F#32⟩

/-- Does the word belong to the row? -/
def OpcodeRow.matches (row : OpcodeRow) (w : Word) : Bool := w &&& row.mask == row.pattern

/-- The host's view of the decoder: bit k of `w` is bit k of the word written to CMD. Every command is one 32-bit word
(R40), so a number of 32 bits or fewer is the whole word (the bits above `nbits` are 0) and a larger one is no command. -/
def decodeTableWord (nbits w : Nat) : Option Instr :=
  if nbits ≤ 32 ∧ w < 2 ^ 32 then (decodeWord (BitVec.ofNat 32 w)).toOption else none

end Sys2Proof
end

