-- ==== Sys2Proof/Config.lean ====
section
/-! DEFINITION. What an implementation of MRD fixes (spec/00_scope.md rules R3 and R5, 10_state.md rule R25) and the
free values (70_reset_and_hazards.md rule R89). -/

namespace Sys2Proof

/-- The seven read-only lookup tables, in the shapes of R25. -/
structure Tables where
  /-- EXP, expansion masks over R (R55). -/
  exp : Vector (BitVec 32) 10
  /-- CMP_LO, compression masks over TLO (R56). -/
  cmpLo : Vector (BitVec 32) 30
  /-- CMP_HI, compression masks over THI (R56). -/
  cmpHi : Vector (BitVec 8) 30
  /-- PERM, permutation masks over SBOX (R64). -/
  perm : Vector (BitVec 32) 20
  /-- SB1, lookups 1 and 2 (R61). -/
  sb1 : Vector Byte 64
  /-- SB2, lookups 3 and 4 (R61). -/
  sb2 : Vector Byte 64
  /-- SB3, lookup 5 (R61). -/
  sb3 : Vector Byte 64
  deriving DecidableEq, Repr, Inhabited

/-- SBOX_FIELD_ORDER (R5, R62). -/
inductive SboxFieldOrder where
  /-- Lookup k reads field 5 − k: this hardware. -/
  | descending
  /-- Lookup k reads field k − 1: the alternative reading. -/
  | ascending
  deriving DecidableEq, Repr

/-- ROT_BIT20_MODE (R5, R50). -/
inductive RotBit20Mode where
  /-- Bit 20 is cleared, then set from bit 0: this hardware. -/
  | copy
  /-- Bit 20 is ORed with bit 0. -/
  | or
  deriving DecidableEq, Repr

/-- The parameters of R5. `execWith`, `stepWith` and `coreWith` take them as an argument. -/
structure Params where
  tables : Tables
  sboxFieldOrder : SboxFieldOrder
  rotBit20Mode : RotBit20Mode
  /-- CHECK_CONST (R67). -/
  checkConst : BitVec 16
  /-- FAIL_SENTINEL (R67). -/
  failSentinel : BitVec 24
  /-- SUCCESS_FLAG (R67). -/
  successFlag : BitVec 24
  /-- DOUBLE_ROT_ROUNDS, a set of rounds (R52). -/
  doubleRotRounds : List (BitVec 5)
  /-- DECODE_CYCLES, the cycles a DECODE is BUSY (R88). -/
  decodeCycles : Nat
  deriving DecidableEq, Repr

/-- The legal values of R5: the rounds of the set are among 1 to 16, and DECODE_CYCLES is at least 1 (every other field's
type is its legal range). -/
def Params.legal (p : Params) : Bool :=
  (p.doubleRotRounds.all fun r => decide (1 ≤ r.toNat ∧ r.toNat ≤ 16)) && decide (1 ≤ p.decodeCycles)

/-- FREE VALUE. The contents of the tables: "none: supplied at elaboration" (R3, R5, 93_implementation_defined.md P1).
No body: a claim about the machine holds for every contents. Log 4. -/
opaque Config.tables : Tables

/-- The parameters of this hardware (R5): every literal is the spec's, the tables are free. Log 5. -/
def Config.params : Params where
  tables := Config.tables
  sboxFieldOrder := .descending
  rotBit20Mode := .copy
  checkConst := 0x2501#16
  failSentinel := 0x200001#24
  successFlag := 0x400000#24
  doubleRotRounds := [16#5, 8#5, 7#5, 3#5]
  decodeCycles := 19

/-- FREE VALUE. The word that the n-th draw returns: a read of offsets 0x1C to 0x50 while BUSY = 1 (R89, U1). Log 6. -/
opaque Config.freeWord : Nat → Word

/-- FREE VALUE. The bit that the n-th draw returns: STATUS.VALID in a read while BUSY = 1 (R89, U2). Log 6. -/
opaque Config.freeBit : Nat → Bool

end Sys2Proof
end

