-- ==== Sys2Proof/Machine/State.lean ====
section
/-! DEFINITION. The state of the MRD block (spec/10_state.md rules R10 to R27), the inputs still to come on its register
port (20_memory.md rule R29), and the reasons a step can stop. -/

namespace Sys2Proof.Machine

open Sys2Proof

/-- PHASE, the engine's next step (R23). -/
inductive Phase where
  | idle
  | load
  | rounds
  | finish
  | check
  deriving DecidableEq, Repr

/-- The value of STATUS.ERRCODE: the codes of R76 that this hardware produces. The codes 4 to 15 are reserved and never
produced, so they are no values here (U5, Log 8). -/
inductive ErrCode where
  /-- 0: no error since ERR was last cleared. -/
  | none
  /-- 1: a CMD write of a word that is not legal (R44). -/
  | illegalCmd
  /-- 2: ROT, SWAP or ROUND while ROUND = 0 (R45). -/
  | badRound
  /-- 3: a write to CMD or a datapath register while BUSY = 1 (R31). -/
  | busy
  deriving DecidableEq, Repr

/-- The datapath registers: those that CLEAR zeroes (R72), at the widths of R10. -/
structure Datapath where
  /-- IN0, input bytes 0 to 3 (R17). -/
  in0 : BitVec 32
  /-- IN1, input bytes 4 to 7 (R17). -/
  in1 : BitVec 32
  /-- IN2, input bytes 8 and 9 (R17). -/
  in2 : BitVec 16
  /-- RESULT (R18). -/
  result : BitVec 24
  /-- PT0, plaintext bytes 0 to 3 (R19). -/
  pt0 : BitVec 32
  /-- PT1, plaintext byte 4 (R19). -/
  pt1 : BitVec 8
  /-- L (R20). -/
  l : BitVec 24
  /-- R (R20). -/
  r : BitVec 24
  /-- TLO (R21). -/
  tlo : BitVec 32
  /-- THI (R21). -/
  thi : BitVec 8
  /-- ROUND (R22). -/
  round : BitVec 5
  /-- EXPR (R24). -/
  expr : BitVec 30
  /-- RKEY (R24). -/
  rkey : BitVec 30
  /-- MIX (R24). -/
  mix : BitVec 30
  /-- GRP (R24). -/
  grp : BitVec 30
  /-- SBOX (R24). -/
  sbox : BitVec 20
  /-- PBOX (R24). -/
  pbox : BitVec 24
  deriving DecidableEq, Repr

/-- The registers of the register space (R10). -/
inductive Reg where
  | id
  | ctrl
  | status
  | cmd
  | in0
  | in1
  | in2
  | result
  | pt0
  | pt1
  | l
  | r
  | tlo
  | thi
  | round
  | expr
  | rkey
  | mix
  | grp
  | sbox
  | pbox
  deriving DecidableEq, Repr

/-- The input pins of R29 in one cycle of `clk`. -/
structure PortPins where
  /-- `rst_n`: false resets the block (R85). -/
  rstN : Bool
  /-- `sel`: the cycle carries a register access. -/
  sel : Bool
  /-- `we`: the access is a write. -/
  we : Bool
  /-- `addr`: the byte offset; bits 1:0 are ignored (R32). -/
  addr : BitVec 8
  /-- `wdata`: the write data. -/
  wdata : Word
  deriving DecidableEq, Repr

/-- What the host does next. Log 1. -/
inductive HostItem where
  /-- One cycle with these pins. -/
  | pins (p : PortPins)
  /-- The line WAIT of R46: read STATUS, one read a cycle, until bit 0 (BUSY) reads 0. Log 14. -/
  | wait
  deriving DecidableEq, Repr

/-- The state: the spec's registers, the output `rdata`, and four fields of the model's own (`host`, `pace`,
`held`, `draws`).
BUSY, VALID, `irq`, ID and CMD have no storage (R12, R14, R15, R16, R80). -/
structure State where
  /-- The datapath registers (R17 to R22, R24). -/
  dp : Datapath
  /-- CTRL.IE (R13). -/
  ie : Bool
  /-- PHASE (R23). -/
  phase : Phase
  /-- STATUS.DONE (R78). -/
  done : Bool
  /-- STATUS.ERR (R79). -/
  err : Bool
  /-- STATUS.ERRCODE (R76). -/
  errcode : ErrCode
  /-- The output `rdata` of the cycle just ended (R29). Log 11. -/
  rdata : Word
  /-- The model's own: the host's accesses still to come, the next one first. Log 1. -/
  host : List HostItem
  /-- The model's own: for each coming cycle, does the engine move in it if it runs? It does in a cycle past the list's
  end, which is the timing of R88. No command changes the list. Log 3. -/
  pace : List Bool
  /-- The model's own: for how many cycles the running DECODE has held its first step back, in a design whose
  DECODE_CYCLES is above 19 (R88); no step of another design counts it or reads it. Log 3. -/
  held : Nat
  /-- The model's own: how many free values have been drawn. Log 7. -/
  draws : Nat
  deriving DecidableEq, Repr

/-- Why a step stops. -/
inductive Fault where
  /-- Raised by the engine step alone, in PHASE = ROUNDS with ROUND = 0: not a state of MRD ("ROUND >= 1 here, so no error
  is possible", R70; "The engine never raises an error", R81). Safe: the machine stops, and no run reaches it. Log 9. -/
  | roundsAtZero
  deriving DecidableEq, Repr

/-- Why an instruction has no meaning. -/
inductive Refusal where
  /-- Raised by an arm of `exec` whose instruction is not modelled; no arm does. Safe: the machine stops. -/
  | notModelled (mnemonic : String)
  deriving DecidableEq, Repr

/-- Every datapath register at its reset value (R27), which is also what CLEAR gives it (R72). -/
def Datapath.zero : Datapath where
  in0 := 0
  in1 := 0
  in2 := 0
  result := 0
  pt0 := 0
  pt1 := 0
  l := 0
  r := 0
  tlo := 0
  thi := 0
  round := 0
  expr := 0
  rkey := 0
  mix := 0
  grp := 0
  sbox := 0
  pbox := 0

/-- The block right after reset (R27, R85), with no access pending and no value drawn (Log 7, Log 11, Log 18). -/
def State.reset : State where
  dp := Datapath.zero
  ie := false
  phase := .idle
  done := false
  err := false
  errcode := .none
  rdata := 0
  host := []
  pace := []
  held := 0
  draws := 0

/-- STATUS.BUSY = (PHASE != IDLE) (R14, R23). -/
def State.busy (s : State) : Bool := s.phase != .idle

end Sys2Proof.Machine
end

