-- ==== Sys2Proof/Machine/Flags.lean ====
section
/-! DEFINITION. The status computations: STATUS, CTRL, VALID and the interrupt line (spec/10_state.md rules R13 to R15,
60_exceptions.md rules R76 and R80). -/

namespace Sys2Proof.Machine

open Sys2Proof

/-- The 4-bit code of R76. -/
def ErrCode.bits : ErrCode → BitVec 4
  | .none => 0#4
  | .illegalCmd => 1#4
  | .badRound => 2#4
  | .busy => 3#4

/-- STATUS.VALID, a copy of RESULT[22] (R15). -/
def State.valid (s : State) : Bool := bit s.dp.result 22

/-- The STATUS word with `v` in the place of VALID: ERRCODE in bits 7:4, VALID 3, ERR 2, DONE 1, BUSY 0 (R14, R30). -/
def State.statusWith (s : State) (v : Bool) : Word :=
  0#24 ++ s.errcode.bits ++ BitVec.ofBool v ++ BitVec.ofBool s.err ++ BitVec.ofBool s.done ++ BitVec.ofBool s.busy

/-- The STATUS word with its exact VALID, what a read returns while BUSY = 0 (R30). -/
def State.statusWord (s : State) : Word := s.statusWith s.valid

/-- The CTRL word: IE in bit 0 (R13). -/
def State.ctrlWord (s : State) : Word := (BitVec.ofBool s.ie).setWidth 32

/-- The interrupt output: IE and (DONE or ERR), a level (R80). -/
def State.irq (s : State) : Bool := s.ie && (s.done || s.err)

end Sys2Proof.Machine
end

