-- ==== Sys2Proof/Machine/Operands.lean ====
section
/-! DEFINITION. The operand forms: register offsets and widths (spec/10_state.md rules R10 and R11, 20_memory.md rules
R30 to R34), the bytes of the input buffer (R17), and the single-bit write of 00_scope.md rule R8. -/

namespace Sys2Proof.Machine

open Sys2Proof

/-- `X[i] <- b` of R8: bit i becomes b, the other bits are unchanged. -/
def writeBit {n : Nat} (v : BitVec n) (i : Nat) (b : Bool) : BitVec n :=
  if b then v ||| (1#n <<< i) else v &&& ~~~(1#n <<< i)

/-- The byte offset of a register (R10). -/
def Reg.offset : Reg → BitVec 8
  | .id => 0x00#8
  | .ctrl => 0x04#8
  | .status => 0x08#8
  | .cmd => 0x0C#8
  | .in0 => 0x10#8
  | .in1 => 0x14#8
  | .in2 => 0x18#8
  | .result => 0x1C#8
  | .pt0 => 0x20#8
  | .pt1 => 0x24#8
  | .l => 0x28#8
  | .r => 0x2C#8
  | .tlo => 0x30#8
  | .thi => 0x34#8
  | .round => 0x38#8
  | .expr => 0x3C#8
  | .rkey => 0x40#8
  | .mix => 0x44#8
  | .grp => 0x48#8
  | .sbox => 0x4C#8
  | .pbox => 0x50#8

/-- The register an address names, from `addr[7:2]` alone (R30, R32); none for the reserved words (R33). -/
def regAt (addr : BitVec 8) : Option Reg :=
  match (addr >>> 2).toNat with
  | 0 => some .id
  | 1 => some .ctrl
  | 2 => some .status
  | 3 => some .cmd
  | 4 => some .in0
  | 5 => some .in1
  | 6 => some .in2
  | 7 => some .result
  | 8 => some .pt0
  | 9 => some .pt1
  | 10 => some .l
  | 11 => some .r
  | 12 => some .tlo
  | 13 => some .thi
  | 14 => some .round
  | 15 => some .expr
  | 16 => some .rkey
  | 17 => some .mix
  | 18 => some .grp
  | 19 => some .sbox
  | 20 => some .pbox
  | _ => none

/-- The registers whose reads are unspecified while BUSY = 1: offsets 0x1C to 0x50 (R30, R89). -/
def Reg.hiddenWhileBusy : Reg → Bool
  | .id | .ctrl | .status | .cmd | .in0 | .in1 | .in2 => false
  | .result | .pt0 | .pt1 | .l | .r | .tlo | .thi | .round => true
  | .expr | .rkey | .mix | .grp | .sbox | .pbox => true

/-- The value of a datapath register as a bus word, the unimplemented bits 0 (R11); 0 for the registers that are not of
the datapath, which `busRead` reads itself. -/
def Datapath.word (d : Datapath) : Reg → Word
  | .id | .ctrl | .status | .cmd => 0
  | .in0 => d.in0
  | .in1 => d.in1
  | .in2 => d.in2.setWidth 32
  | .result => d.result.setWidth 32
  | .pt0 => d.pt0
  | .pt1 => d.pt1.setWidth 32
  | .l => d.l.setWidth 32
  | .r => d.r.setWidth 32
  | .tlo => d.tlo
  | .thi => d.thi.setWidth 32
  | .round => d.round.setWidth 32
  | .expr => d.expr.setWidth 32
  | .rkey => d.rkey.setWidth 32
  | .mix => d.mix.setWidth 32
  | .grp => d.grp.setWidth 32
  | .sbox => d.sbox.setWidth 32
  | .pbox => d.pbox.setWidth 32

/-- A ROUND write: v[4:0] if it is at most 16, else ignored (R22). -/
def Datapath.storeRound (d : Datapath) (v : Word) : Datapath :=
  if (v.setWidth 5).toNat ≤ 16 then { d with round := v.setWidth 5 } else d

/-- A bus write of a datapath register stores bits [width−1:0] (R11); ROUND by R22; RESULT and GRP are read-only, and the
other four registers are not of the datapath (R31). -/
def Datapath.store (d : Datapath) (reg : Reg) (v : Word) : Datapath :=
  match reg with
  | .id | .ctrl | .status | .cmd | .result | .grp => d
  | .in0 => { d with in0 := v }
  | .in1 => { d with in1 := v }
  | .in2 => { d with in2 := v.setWidth 16 }
  | .pt0 => { d with pt0 := v }
  | .pt1 => { d with pt1 := v.setWidth 8 }
  | .l => { d with l := v.setWidth 24 }
  | .r => { d with r := v.setWidth 24 }
  | .tlo => { d with tlo := v }
  | .thi => { d with thi := v.setWidth 8 }
  | .round => d.storeRound v
  | .expr => { d with expr := v.setWidth 30 }
  | .rkey => { d with rkey := v.setWidth 30 }
  | .mix => { d with mix := v.setWidth 30 }
  | .sbox => { d with sbox := v.setWidth 20 }
  | .pbox => { d with pbox := v.setWidth 24 }

/-- `cipher[n]`, input bytes 0 to 4 (R17, R34, R48). -/
def Datapath.cipher (d : Datapath) (n : Fin 5) : Byte :=
  match n with
  | 0 => d.in0.extractLsb' 0 8
  | 1 => d.in0.extractLsb' 8 8
  | 2 => d.in0.extractLsb' 16 8
  | 3 => d.in0.extractLsb' 24 8
  | 4 => d.in1.extractLsb' 0 8

/-- `key[n]`, input bytes 5 to 9 (R17, R34, R48). -/
def Datapath.key (d : Datapath) (n : Fin 5) : Byte :=
  match n with
  | 0 => d.in1.extractLsb' 8 8
  | 1 => d.in1.extractLsb' 16 8
  | 2 => d.in1.extractLsb' 24 8
  | 3 => d.in2.extractLsb' 0 8
  | 4 => d.in2.extractLsb' 8 8

end Sys2Proof.Machine
end

