-- ==== Sys2Proof/Machine/Ops.lean ====
section
/-! DEFINITION. The operations every command and access goes through: raising a command error and acknowledging it
(spec/60_exceptions.md rules R75, R78, R79, R84), accepting a command (30_encoding.md rule R45), drawing a free value
(70_reset_and_hazards.md rule R89) and reset (R85). -/

namespace Sys2Proof.Machine

open Sys2Proof

/-- The outcome of a command or a cycle. -/
abbrev Result := Host.Outcome State Fault Refusal

/-- `raise CmdError(code)`: ERR is set, and ERRCODE too if ERR was 0; nothing else changes (R75). -/
def State.raiseCmdError (s : State) (code : ErrCode) : State :=
  { s with err := true, errcode := if s.err then s.errcode else code }

/-- A write of `v` to STATUS: bit 1 clears DONE (R78); bit 2 clears ERR and ERRCODE (R79). This is the only
acknowledge; there is no trap return (R84). -/
def State.acknowledge (s : State) (v : Word) : State :=
  { s with
    done := if bit v 1 then false else s.done
    err := if bit v 2 then false else s.err
    errcode := if bit v 2 then .none else s.errcode }

/-- A write of `v` to CTRL (R13). -/
def State.writeCtrl (s : State) (v : Word) : State := { s with ie := bit v 0 }

/-- Acceptance of a command clears DONE (R45, R78). -/
def State.beginCommand (s : State) : State := { s with done := false }

/-- Completion of a command that works on the datapath alone: its new registers, and DONE (R45, R78). -/
def State.complete (s : State) (d : Datapath) : State := { s with dp := d, done := true }

/-- Acceptance of DECODE starts the engine (R45, R69). -/
def State.startEngine (s : State) : State := { s with phase := .load }

/-- A legal command other than ROT, SWAP, ROUND and DECODE, presented by a CMD write: the BUSY check (R31, R77), then the
procedure of R45 with the command's rule as `rule`. -/
def State.command (s : State) (rule : Datapath → Datapath) : Result :=
  if s.busy then .next (s.raiseCmdError .busy)
  else .next (s.beginCommand.complete (rule s.dp))

/-- ROT, SWAP or ROUND: as `command`, with the BAD_ROUND check before acceptance (R45, R77). -/
def State.roundCommand (s : State) (rule : Datapath → Datapath) : Result :=
  if s.busy then .next (s.raiseCmdError .busy)
  else if s.dp.round = 0 then .next (s.raiseCmdError .badRound)
  else .next (s.beginCommand.complete (rule s.dp))

/-- DECODE: the BUSY check, then DONE <- 0 and PHASE <- LOAD (R45, R69). -/
def State.decodeCommand (s : State) : Result :=
  if s.busy then .next (s.raiseCmdError .busy)
  else .next s.beginCommand.startEngine

/-- A word that is not legal: code 3 while BUSY, else code 1 (R44, R77). -/
def State.illegalCommand (s : State) : Result :=
  if s.busy then .next (s.raiseCmdError .busy)
  else .next (s.raiseCmdError .illegalCmd)

/-- A free value has been drawn (R89). -/
def State.drawn (s : State) : State := { s with draws := s.draws + 1 }

/-- Reset: every register takes the value of R27 (R85, R86), and a read in that cycle returns 0. What the host and the
clock do next is not the block's state and stays (Log 18); what a stopped DECODE has held back is gone (R86). -/
def State.resetBlock (s : State) : State :=
  { State.reset with host := s.host, pace := s.pace, draws := s.draws }

end Sys2Proof.Machine
end

