-- ==== Sys2Proof/Machine/Loader.lean ====
section
/-! DEFINITION. The block splitter and time/register loader: LOAD (spec/40_loader.md rules R48 and R49). -/

namespace Sys2Proof.Machine

open Sys2Proof

/-- The time-low word of the key bytes (R48). -/
def Datapath.timeLow (d : Datapath) : BitVec 32 := d.key 3 ++ d.key 2 ++ d.key 1 ++ d.key 0

/-- The 24 bits of cipher bytes 4, 3 and 2 (R48). -/
def Datapath.rWide (d : Datapath) : BitVec 24 := d.cipher 4 ++ d.cipher 3 ++ d.cipher 2

/-- The register writes of LOAD (R48). -/
def Datapath.load (d : Datapath) : Datapath :=
  { d with
    tlo := d.timeLow
    thi := d.key 4
    r := ((d.rWide >>> 4).setWidth 20).setWidth 24
    l := ((d.cipher 2).extractLsb' 0 4 ++ d.cipher 1 ++ d.cipher 0 : BitVec 20).setWidth 24
    round := 16 }

/-- LOAD (R48). -/
def execLoad (s : State) : Result := s.command Datapath.load

end Sys2Proof.Machine
end

