-- ==== Sys2Proof/Machine/Plaintext.lean ====
section
/-! DEFINITION. The plaintext assembler: FINISH, CHECK (spec/43_assembler.md rules R65 to R68). -/

namespace Sys2Proof.Machine

open Sys2Proof

/-- R shifted left by 4, whose bytes 0 to 2 the terminal action uses (R65). -/
def shiftedR (r : BitVec 24) : BitVec 32 := r.setWidth 32 <<< 4

/-- `Finish(L, R)` (R65): `{pt[4], pt[3], pt[2], pt[1], pt[0]}` as one 40-bit value. -/
def finishHalves (l r : BitVec 24) : BitVec 40 :=
  (shiftedR r).extractLsb' 16 8 ++ (shiftedR r).extractLsb' 8 8 ++
  ((shiftedR r).extractLsb' 4 4 ++ l.extractLsb' 16 4 : BitVec 8) ++ l.extractLsb' 8 8 ++ l.extractLsb' 0 8

/-- The register writes of FINISH; L and R are unchanged (R66). -/
def Datapath.finish (d : Datapath) : Datapath :=
  { d with
    pt0 := (finishHalves d.l d.r).extractLsb' 0 32
    pt1 := (finishHalves d.l d.r).extractLsb' 32 8 }

/-- The 16-bit checksum `{pt[2][3:0], pt[1], pt[0][7:4]}` of a plaintext (R67). -/
def checksum (pt : BitVec 40) : BitVec 16 := pt.extractLsb' 16 4 ++ pt.extractLsb' 8 8 ++ pt.extractLsb' 4 4

/-- The payload `{pt[0][3:0], pt[4], pt[3], pt[2][7:4]}`, cut to 22 bits (R67). -/
def payload (pt : BitVec 40) : BitVec 22 :=
  (pt.extractLsb' 0 4 ++ pt.extractLsb' 32 8 ++ pt.extractLsb' 24 8 ++ pt.extractLsb' 20 4 : BitVec 24).setWidth 22

/-- `Check(pt)` (R67). -/
def checkPlaintext (p : Params) (pt : BitVec 40) : BitVec 24 :=
  if checksum pt ≠ p.checkConst then p.failSentinel else (payload pt).setWidth 24 ||| p.successFlag

/-- The plaintext in PT0 and PT1 (R19, R68). -/
def Datapath.plaintext (d : Datapath) : BitVec 40 := d.pt1 ++ d.pt0

/-- The register write of CHECK (R68). -/
def Datapath.check (p : Params) (d : Datapath) : Datapath := { d with result := checkPlaintext p d.plaintext }

/-- FINISH (R66). -/
def execFinish (s : State) : Result := s.command Datapath.finish

/-- CHECK (R68). -/
def execCheckWith (p : Params) (s : State) : Result := s.command (Datapath.check p)

/-- CHECK of this hardware. -/
def execCheck (s : State) : Result := execCheckWith Config.params s

end Sys2Proof.Machine
end

