-- ==== Sys2Proof/Machine/Substitution.lean ====
section
/-! DEFINITION. The substitution stage and the permutation engine: SBOX, PBOX (spec/42_sbox_pbox.md rules R60 to R64). -/

namespace Sys2Proof.Machine

open Sys2Proof

/-- The loop of Regroup (R60), from index i with `todo` iterations left, the pool positions lp and hp and the value g so
far. -/
def regroupLoop (m : BitVec 30) : (todo i lp hp : Nat) → BitVec 30 → BitVec 30
  | 0, _, _, _, g => g
  | todo + 1, i, lp, hp, g =>
    if (i + 1) % 6 = 0 ∨ (i + 2) % 6 = 0 then regroupLoop m todo (i + 1) lp (hp + 1) (writeBit g i (bit m hp))
    else regroupLoop m todo (i + 1) (lp + 1) hp (writeBit g i (bit m lp))

/-- `Regroup(m)` (R60). -/
def regroup (m : BitVec 30) : BitVec 30 := regroupLoop m 30 0 0 20 0

/-- Field j of the regrouped value, bits [6j+5:6j] (R60). -/
def groupField (g : BitVec 30) (j : Nat) : BitVec 6 := g.extractLsb' (6 * j) 6

/-- `FieldOf(k)` (R62). -/
def fieldOf (order : SboxFieldOrder) (k : Nat) : Nat :=
  match order with
  | .descending => 5 - k
  | .ascending => k - 1

/-- A substitution table at a 6-bit index (R61). -/
def sboxEntry (table : Vector Byte 64) (x : BitVec 6) : Byte := table.get x.toFin

/-- An entry's low nibble, used by lookups 1, 3 and 5 (R61). -/
def lowNibble (b : Byte) : BitVec 4 := b.extractLsb' 0 4

/-- An entry's high nibble, used by lookups 2 and 4 (R61). -/
def highNibble (b : Byte) : BitVec 4 := b.extractLsb' 4 4

/-- `Substitute(g)` (R61, R63): lookups 4, 5, 2, 3, 1 from the most significant nibble down. -/
def substituteGroups (p : Params) (g : BitVec 30) : BitVec 20 :=
  highNibble (sboxEntry p.tables.sb2 (groupField g (fieldOf p.sboxFieldOrder 4))) ++
  lowNibble (sboxEntry p.tables.sb3 (groupField g (fieldOf p.sboxFieldOrder 5))) ++
  highNibble (sboxEntry p.tables.sb1 (groupField g (fieldOf p.sboxFieldOrder 2))) ++
  lowNibble (sboxEntry p.tables.sb2 (groupField g (fieldOf p.sboxFieldOrder 3))) ++
  lowNibble (sboxEntry p.tables.sb1 (groupField g (fieldOf p.sboxFieldOrder 1)))

/-- The register writes of SBOX (R63). -/
def Datapath.substitute (p : Params) (d : Datapath) : Datapath :=
  { d with grp := regroup d.mix, sbox := substituteGroups p (regroup d.mix) }

/-- `Permute(s)` (R64): bits 23:20 preset to 1, and bit i set when s meets the mask PERM[i]. -/
def permuteBits (t : Tables) (s : BitVec 20) : BitVec 24 :=
  0xF#4 ++ BitVec.ofFnLE (fun i : Fin 20 => (s.setWidth 32 &&& t.perm.get i) != 0#32)

/-- The register write of PBOX (R64). -/
def Datapath.permute (p : Params) (d : Datapath) : Datapath := { d with pbox := permuteBits p.tables d.sbox }

/-- SBOX (R63). -/
def execSboxWith (p : Params) (s : State) : Result := s.command (Datapath.substitute p)

/-- SBOX of this hardware. -/
def execSbox (s : State) : Result := execSboxWith Config.params s

/-- PBOX (R64). -/
def execPboxWith (p : Params) (s : State) : Result := s.command (Datapath.permute p)

/-- PBOX of this hardware. -/
def execPbox (s : State) : Result := execPboxWith Config.params s

end Sys2Proof.Machine
end

