-- ==== Sys2Proof/Machine/RoundEngine.lean ====
section
/-! DEFINITION. The round engine: ROT, ROTI, EXPAND, COMPRESS, MIX, SWAP, ROUND (spec/41_round_engine.md rules R50 to
R59). Each rule and each `…With` meaning takes the parameters of 00_scope.md rule R5; the `exec…` meanings are at this
hardware's. -/

namespace Sys2Proof.Machine

open Sys2Proof

/-- One application of the rotation procedure (R50). -/
def rotStep (mode : RotBit20Mode) (t : BitVec 32 × BitVec 8) : BitVec 32 × BitVec 8 :=
  let saved := bit t.1 20
  let lo := writeBit t.1 20 (match mode with
    | .copy => bit t.1 0
    | .or => bit t.1 20 || bit t.1 0)
  (writeBit (lo >>> 1) 31 (bit t.2 0), writeBit (t.2 >>> 1) 7 saved)

/-- `repeat n times: (TLO, THI) <- RotStep(TLO, THI)` (R53, R54). -/
def rotSteps (mode : RotBit20Mode) : Nat → BitVec 32 × BitVec 8 → BitVec 32 × BitVec 8
  | 0, t => t
  | n + 1, t => rotSteps mode n (rotStep mode t)

/-- The rotation amount of a round (R52). -/
def rotAmount (p : Params) (round : BitVec 5) : Nat := if round ∈ p.doubleRotRounds then 2 else 1

/-- The time register after n single steps (R54). -/
def Datapath.rotateBy (p : Params) (n : Nat) (d : Datapath) : Datapath :=
  { d with
    tlo := (rotSteps p.rotBit20Mode n (d.tlo, d.thi)).1
    thi := (rotSteps p.rotBit20Mode n (d.tlo, d.thi)).2 }

/-- The register writes of ROT (R53). -/
def Datapath.rot (p : Params) (d : Datapath) : Datapath := d.rotateBy p (rotAmount p d.round)

/-- `Expand(r)` (R55): r[19:0], and bit 20+i set when r[19:0] meets the mask EXP[i]. -/
def expandR (t : Tables) (r : BitVec 24) : BitVec 30 :=
  BitVec.ofFnLE (fun i : Fin 10 => ((r.setWidth 20).setWidth 32 &&& t.exp.get i) != 0#32) ++ r.setWidth 20

/-- The register write of EXPAND (R55). -/
def Datapath.expand (p : Params) (d : Datapath) : Datapath := { d with expr := expandR p.tables d.r }

/-- `Compress(lo, hi)` (R56): bit i is set when lo meets CMP_LO[i] or hi meets CMP_HI[i]. -/
def compressKey (t : Tables) (lo : BitVec 32) (hi : BitVec 8) : BitVec 30 :=
  BitVec.ofFnLE fun i : Fin 30 => (lo &&& t.cmpLo.get i) != 0#32 || (hi &&& t.cmpHi.get i) != 0#8

/-- The register write of COMPRESS (R56). -/
def Datapath.compress (p : Params) (d : Datapath) : Datapath := { d with rkey := compressKey p.tables d.tlo d.thi }

/-- The register writes of MIX: MIX from EXPR before bits 23:20 of EXPR are cleared (R57). -/
def Datapath.mixKey (d : Datapath) : Datapath :=
  { d with mix := d.expr ^^^ d.rkey, expr := d.expr &&& ~~~0x00F00000#30 }

/-- The register writes of SWAP, all from the values before it (R58). -/
def Datapath.swap (d : Datapath) : Datapath :=
  { d with l := d.r, r := d.pbox ^^^ d.l, round := d.round - 1 }

/-- The register writes of ROUND: the seven commands in order (R59). Irreducible, so that no unifier compares seven nested
record updates field by field: Laws/State.lean has its equation and a lemma per field. -/
@[irreducible] def Datapath.oneRound (p : Params) (d : Datapath) : Datapath :=
  ((((((d.rot p).expand p).compress p).mixKey).substitute p).permute p).swap

/-- ROT (R53). -/
def execRotWith (p : Params) (s : State) : Result := s.roundCommand (Datapath.rot p)

/-- ROT of this hardware. -/
def execRot (s : State) : Result := execRotWith Config.params s

/-- ROTI n (R54). -/
def execRotiWith (p : Params) (cnt : BitVec 2) (s : State) : Result := s.command (Datapath.rotateBy p cnt.toNat)

/-- ROTI n of this hardware. -/
def execRoti (cnt : BitVec 2) (s : State) : Result := execRotiWith Config.params cnt s

/-- EXPAND (R55). -/
def execExpandWith (p : Params) (s : State) : Result := s.command (Datapath.expand p)

/-- EXPAND of this hardware. -/
def execExpand (s : State) : Result := execExpandWith Config.params s

/-- COMPRESS (R56). -/
def execCompressWith (p : Params) (s : State) : Result := s.command (Datapath.compress p)

/-- COMPRESS of this hardware. -/
def execCompress (s : State) : Result := execCompressWith Config.params s

/-- MIX (R57). -/
def execMix (s : State) : Result := s.command Datapath.mixKey

/-- SWAP (R58). -/
def execSwap (s : State) : Result := s.roundCommand Datapath.swap

/-- ROUND (R59). -/
def execRoundWith (p : Params) (s : State) : Result := s.roundCommand (Datapath.oneRound p)

/-- ROUND of this hardware. -/
def execRound (s : State) : Result := execRoundWith Config.params s

end Sys2Proof.Machine
end

