-- ==== Sys2Proof/Machine/Engine.lean ====
section
/-! DEFINITION. The engine that runs a DECODE (spec/44_control.md rules R69, R70 and R73, 70_reset_and_hazards.md rule
R88). -/

namespace Sys2Proof.Machine

open Sys2Proof

/-- The phase after the engine's ROUND step (R70). -/
def phaseAfterRound (d : Datapath) : Phase := if d.round = 0 then .finish else .rounds

/-- One EngineStep (R70), with the parameters `p`. In IDLE there is none. PHASE = ROUNDS with ROUND = 0 is not a state of
MRD (Log 9). -/
def engineStepWith (p : Params) (s : State) : Result :=
  match s.phase with
  | .idle => .next s
  | .load => .next { s with dp := s.dp.load, phase := .rounds }
  | .rounds =>
    if s.dp.round = 0 then .fault .roundsAtZero
    else .next { s with dp := s.dp.oneRound p, phase := phaseAfterRound (s.dp.oneRound p) }
  | .finish => .next { s with dp := s.dp.finish, phase := .check }
  | .check => .next { s with dp := s.dp.check p, phase := .idle, done := true }

/-- One EngineStep of this hardware (R70). -/
def engineStep (s : State) : Result := engineStepWith Config.params s

/-- n engine steps, up to the first stop. -/
def engineStepsWith (p : Params) : Nat → State → Result
  | 0, s => .next s
  | n + 1, s =>
    match engineStepWith p s with
    | .next t => engineStepsWith p n t
    | .fault f => .fault f
    | .refused q => .refused q

/-- n engine steps of this hardware. -/
def engineSteps (n : Nat) (s : State) : Result := engineStepsWith Config.params n s

/-- The engine steps of a DECODE: 1 + 16 + 1 + 1 (R70). -/
def decodeSteps : Nat := 19

/-- The engine steps of a cycle that carries any: one, as in the reference design (R88). A design whose DECODE_CYCLES is
below 19 (R5) takes the steps that its other cycles leave over in the first one. Log 3. -/
def stepsPerCycle (p : Params) (phase : Phase) : Nat :=
  match phase with
  | .load => decodeSteps + 1 - min p.decodeCycles decodeSteps
  | .idle | .rounds | .finish | .check => 1

/-- Before its first step a design whose DECODE_CYCLES is above 19 lets pass the cycles that it needs for no step (R5,
R88). Log 3. -/
def State.holds (p : Params) (s : State) : Bool :=
  s.phase == .load && decide (decodeSteps + s.held < p.decodeCycles)

/-- The state in which the engine steps: a design that counts held cycles is done with the count. -/
def State.release (p : Params) (s : State) : State :=
  if decodeSteps < p.decodeCycles then { s with held := 0 } else s

/-- What the engine does in a cycle in which it moves. -/
def engineCycle (p : Params) (s : State) : Result :=
  if s.holds p then .next { s with held := s.held + 1 }
  else engineStepsWith p (stepsPerCycle p s.phase) (s.release p)

end Sys2Proof.Machine
end

