-- ==== Sys2Proof/Machine/Control.lean ====
section
/-! DEFINITION. The sequenced and control commands: DECODE, NOP, CLEAR, and the reserved opcode (spec/44_control.md rules
R69, R71 and R72, 30_encoding.md rule R44). The engine that DECODE starts is in Engine.lean. -/

namespace Sys2Proof.Machine

open Sys2Proof

/-- NOP: no register changes (R71). -/
def execNop (s : State) : Result := s.command fun d => d

/-- CLEAR: every datapath register becomes 0 (R72). -/
def execClear (s : State) : Result := s.command fun _ => Datapath.zero

/-- DECODE: acceptance starts the engine (R45, R69). -/
def execDecode (s : State) : Result := s.decodeCommand

/-- A word with OPC = 0xF: its other bits are not looked at; it is rejected (R44). -/
def execReserved (_w : Word) (s : State) : Result := s.illegalCommand

end Sys2Proof.Machine
end

