-- ==== Sys2Proof/Machine/Parametric.lean ====
section
/-! DEFINITION. The commands of an MRD with any parameters (spec/00_scope.md rule R5: "The model takes the following named
parameters as arguments"). `exec` (Dispatch.lean) is the same at this hardware's parameters, `Config.params`: both call the
same meanings, and Laws/Ops.lean proves the two equal. -/

namespace Sys2Proof.Machine

open Sys2Proof

/-- What a write of the command's word to CMD does, with the parameters `p`. -/
def execWith (p : Params) (i : Instr) (s : State) : Result :=
  match i with
  | .nop => execNop s
  | .load => execLoad s
  | .rot => execRotWith p s
  | .roti cnt => execRotiWith p cnt s
  | .expand => execExpandWith p s
  | .compress => execCompressWith p s
  | .mix => execMix s
  | .sbox => execSboxWith p s
  | .pbox => execPboxWith p s
  | .swap => execSwap s
  | .round => execRoundWith p s
  | .finish => execFinish s
  | .check => execCheckWith p s
  | .decode => execDecode s
  | .clear => execClear s
  | .reserved w => execReserved w s

end Sys2Proof.Machine
end

