-- ==== Sys2Proof/Machine/Bus.lean ====
section
/-! DEFINITION. The register port (spec/20_memory.md rules R28 to R39): bus read, bus write, the command a CMD write
presents, and one clock cycle (60_exceptions.md rule R81, 70_reset_and_hazards.md rules R85 and R88),
each with the parameters of 00_scope.md rule R5 as an argument where it depends on them. -/

namespace Sys2Proof.Machine

open Sys2Proof

/-- ID (R12). -/
def idWord : Word := 0x4D524401#32

/-- `BusRead` of a register (R30): the word read, and the state, in which only the count of drawn values can differ. -/
def readReg (reg : Reg) (s : State) : Word × State :=
  match reg with
  | .id => (idWord, s)
  | .ctrl => (s.ctrlWord, s)
  | .status => if s.busy then (s.statusWith (Config.freeBit s.draws), s.drawn) else (s.statusWord, s)
  | .cmd => (0, s)
  | reg => if s.busy && reg.hiddenWhileBusy then (Config.freeWord s.draws, s.drawn) else (s.dp.word reg, s)

/-- `BusRead(off)` (R30): 0 at a reserved offset (R33). -/
def busRead (addr : BitVec 8) (s : State) : Word × State :=
  match regAt addr with
  | none => (0, s)
  | some reg => readReg reg s

/-- A word presented to CMD (R31, R44, R45): the command it decodes to, or the error of an illegal word. -/
def presentCommand (par : Params) (w : Word) (s : State) : Result :=
  match decodeWord w with
  | .ok i => execWith par i s
  | .error _ => s.illegalCommand

/-- `BusWrite` of a register (R31). -/
def writeReg (par : Params) (reg : Reg) (v : Word) (s : State) : Result :=
  match reg with
  | .id | .result | .grp => .next s
  | .ctrl => .next (s.writeCtrl v)
  | .status => .next (s.acknowledge v)
  | .cmd => presentCommand par v s
  | reg => .next (if s.busy then s.raiseCmdError .busy else { s with dp := s.dp.store reg v })

/-- `BusWrite(off, v)` (R31): nothing at a reserved offset (R33). -/
def busWriteWith (par : Params) (addr : BitVec 8) (v : Word) (s : State) : Result :=
  match regAt addr with
  | none => .next s
  | some reg => writeReg par reg v s

/-- `BusWrite(off, v)` of this hardware. -/
def busWrite (addr : BitVec 8) (v : Word) (s : State) : Result := busWriteWith Config.params addr v s

/-- A cycle with no access. -/
def idlePins : PortPins := { rstN := true, sel := false, we := false, addr := 0, wdata := 0 }

/-- A cycle with a bus read. -/
def readPins (addr : BitVec 8) : PortPins := { rstN := true, sel := true, we := false, addr := addr, wdata := 0 }

/-- A cycle with a bus write. -/
def writePins (addr : BitVec 8) (v : Word) : PortPins :=
  { rstN := true, sel := true, we := true, addr := addr, wdata := v }

/-- A cycle in which `rst_n` is 0 (R85). -/
def resetPins : PortPins := { rstN := false, sel := false, we := false, addr := 0, wdata := 0 }

/-- The pins of the coming cycle: the host's next item; WAIT reads STATUS (R46); no access when nothing is left. -/
def State.nextPins (s : State) : PortPins :=
  match s.host with
  | [] => idlePins
  | .pins p :: _ => p
  | .wait :: _ => readPins Reg.status.offset

/-- What the host has left to do after the coming cycle: WAIT stays while BUSY reads 1 (R46). -/
def State.hostAfter (s : State) : List HostItem :=
  match s.host with
  | [] => []
  | .pins _ :: rest => rest
  | .wait :: rest => if s.busy then .wait :: rest else rest

/-- Does the engine move in the coming cycle? Only if it runs when the cycle begins: the cycle of the DECODE write has no
step (R88). Log 2, Log 3. -/
def State.engineReady (s : State) : Bool := s.busy && s.pace.headD true

/-- The state in which the coming cycle's access is performed: the host and the pace have moved on, and `rdata` is 0
unless the access is a read (R29). -/
def State.fetch (s : State) : State := { s with host := s.hostAfter, pace := s.pace.tail, rdata := 0 }

/-- A read puts its word on `rdata` (R29, R30). -/
def State.readOut (s : State) (addr : BitVec 8) : State := { (busRead addr s).2 with rdata := (busRead addr s).1 }

/-- The access of a cycle outside reset (R29 to R31). -/
def busAccess (par : Params) (p : PortPins) (s : State) : Result :=
  if p.sel then
    if p.we then busWriteWith par p.addr p.wdata s else .next (s.readOut p.addr)
  else .next s

/-- One rising edge of `clk` with the pins `p`: reset (R85), or the bus access and after it the engine's step, if the
cycle has one (R81). -/
def clockCycle (par : Params) (p : PortPins) (engine : Bool) (s : State) : Result :=
  if p.rstN then
    match busAccess par p s with
    | .next t => if engine then engineCycle par t else .next t
    | .fault f => .fault f
    | .refused q => .refused q
  else .next s.resetBlock

/-- One clock cycle of an MRD with the parameters `par`: the host's next access, then the engine's step if the cycle has
one. -/
def stepWith (par : Params) (s : State) : Result := clockCycle par s.nextPins s.engineReady s.fetch

/-- The MRD block with the parameters `par` (R5). -/
def coreWith (par : Params) : Host.Core where
  State := State
  Fault := Fault
  Refusal := Refusal
  step := stepWith par
  reset := State.reset

end Sys2Proof.Machine
end

