-- ==== Sys2Proof/Machine/Dispatch.lean ====
section
/-! DEFINITION. One arm per command (spec/30_encoding.md rule R41): what a write of the command's word to CMD does. -/

namespace Sys2Proof.Machine

open Sys2Proof

def exec (i : Instr) (s : State) : Host.Outcome State Fault Refusal :=
  match i with
  | .nop => Sys2Proof.Machine.execNop s
  | .load => Sys2Proof.Machine.execLoad s
  | .rot => Sys2Proof.Machine.execRot s
  | .roti cnt => Sys2Proof.Machine.execRoti cnt s
  | .expand => Sys2Proof.Machine.execExpand s
  | .compress => Sys2Proof.Machine.execCompress s
  | .mix => Sys2Proof.Machine.execMix s
  | .sbox => Sys2Proof.Machine.execSbox s
  | .pbox => Sys2Proof.Machine.execPbox s
  | .swap => Sys2Proof.Machine.execSwap s
  | .round => Sys2Proof.Machine.execRound s
  | .finish => Sys2Proof.Machine.execFinish s
  | .check => Sys2Proof.Machine.execCheck s
  | .decode => Sys2Proof.Machine.execDecode s
  | .clear => Sys2Proof.Machine.execClear s
  | .reserved w => Sys2Proof.Machine.execReserved w s

end Sys2Proof.Machine
end

