-- ==== Sys2Proof/Machine/Step.lean ====
section
/-! DEFINITION. The step: one cycle of `clk` (spec/20_memory.md rule R29, 60_exceptions.md rule R81,
70_reset_and_hazards.md rule R88). -/

namespace Sys2Proof.Machine

open Sys2Proof

/-- One clock cycle of this hardware. -/
def step (s : State) : Host.Outcome State Fault Refusal := stepWith Config.params s

/-- `s` with a write of the word `w` to CMD as the host's next access (R40: "one write is one command"). The block fetches
no instructions (R23, R39), so this is how a command reaches it. Log 1. -/
def State.withFetchWord (s : State) (_nbits w : Nat) : State :=
  { s with host := .pins (writePins Reg.cmd.offset (BitVec.ofNat 32 w)) :: s.host }

end Sys2Proof.Machine
end

