-- ==== Sys2Proof/Machine/Script.lean ====
section
/-! DEFINITION. The program lines and pseudo-instructions of spec/30_encoding.md rules R46 and R47, as items of the
host's script. -/

namespace Sys2Proof.Machine

open Sys2Proof

/-- A program line (R46); a comment is no line. -/
inductive ScriptLine where
  /-- A mnemonic, `ROTI n` among them. -/
  | command (i : Instr)
  /-- `WR reg, value`. -/
  | wr (reg : Reg) (value : Word)
  /-- `RD reg`: its value is `rdata` after the cycle. -/
  | rd (reg : Reg)
  /-- `WAIT`. -/
  | wait
  deriving DecidableEq, Repr

/-- A pseudo-instruction (R47). -/
inductive Pseudo where
  | rot1
  | rot2
  | rounds (n : Nat)
  | stepRound
  | loadIn (bytes : List Byte)
  | clrStat
  | decodeW
  deriving DecidableEq, Repr

/-- The operands R47 allows: ROUNDS with 1 to 16, LOADIN with at most ten bytes. -/
def Pseudo.wellFormed : Pseudo → Bool
  | .rounds n => 1 ≤ n && n ≤ 16
  | .loadIn bytes => bytes.length ≤ 10
  | .rot1 | .rot2 | .stepRound | .clrStat | .decodeW => true

/-- Byte n of a LOADIN, 0 where it is missing (R47, R91). -/
def inputByte (bytes : List Byte) (n : Nat) : Byte := bytes.getD n 0

/-- The lines a pseudo-instruction stands for (R47). -/
def Pseudo.lines : Pseudo → List ScriptLine
  | .rot1 => [.command (.roti 1)]
  | .rot2 => [.command (.roti 2)]
  | .rounds n => List.replicate n (.command .round)
  | .stepRound =>
    [.command .rot, .command .expand, .command .compress, .command .mix, .command .sbox, .command .pbox,
      .command .swap]
  | .loadIn b =>
    [.wr .in0 (inputByte b 3 ++ inputByte b 2 ++ inputByte b 1 ++ inputByte b 0),
      .wr .in1 (inputByte b 7 ++ inputByte b 6 ++ inputByte b 5 ++ inputByte b 4),
      .wr .in2 (0#16 ++ inputByte b 9 ++ inputByte b 8)]
  | .clrStat => [.wr .status 0x6]
  | .decodeW => [.command .decode, .wait]

/-- What the host does for a line (R46). -/
def ScriptLine.item : ScriptLine → HostItem
  | .command i => .pins (writePins Reg.cmd.offset (encode i))
  | .wr reg v => .pins (writePins reg.offset v)
  | .rd reg => .pins (readPins reg.offset)
  | .wait => .wait

/-- `s` with a program as the host's script. -/
def State.withScript (s : State) (lines : List ScriptLine) : State := { s with host := lines.map ScriptLine.item }

end Sys2Proof.Machine
end

