-- ==== Sys2Proof/Safety.lean ====
section
/-! DEFINITION. The terms the statements are written in: the legal states of MRD, runs of commands and of engine steps,
the two rings of the time register (spec/41_round_engine.md rule R51), and the width and access columns of
10_state.md rule R10. -/

namespace Sys2Proof.Machine

open Sys2Proof

/-- The two values of a CHECK and the value after reset or CLEAR (R15, R18, R67): RESULT is 0, the failure sentinel, or
has bits 23:22 = 01. -/
def resultForm (result : BitVec 24) : Prop :=
  result = 0#24 ∨ result = 0x200001#24 ∨ result.extractLsb' 22 2 = 1#2

/-- The legal states of MRD. -/
structure State.Legal (s : State) : Prop where
  /-- ROUND is 0 to 16 (R22). -/
  round_le : s.dp.round.toNat ≤ 16
  /-- In PHASE = ROUNDS, ROUND is at least 1 (R70). -/
  rounds_pos : s.phase = .rounds → s.dp.round ≠ 0#5
  /-- The terminal action runs at ROUND = 0 (R66, R70). -/
  terminal_zero : s.phase = .finish ∨ s.phase = .check → s.dp.round = 0#5
  /-- DONE is 0 while BUSY is 1 (R69, R78). -/
  busy_not_done : s.busy = true → s.done = false
  /-- ERRCODE is 0 exactly while ERR is 0 (R76). -/
  code_iff : s.errcode = .none ↔ s.err = false
  /-- RESULT has one of its forms (R18). -/
  result_form : resultForm s.dp.result

/-- The states of a design with the parameters `par` as to its held cycles: a count other than 0 is that of a DECODE which
has not taken its first step, and it is within DECODE_CYCLES (R88). -/
def State.HeldLegal (par : Params) (s : State) : Prop :=
  s.held = 0 ∨ s.phase = .load ∧ decodeSteps + s.held ≤ par.decodeCycles

/-- Commands issued one after another, each by a CMD write, up to the first stop. -/
def execAll : List Instr → State → Result
  | [], s => .next s
  | i :: rest, s =>
    match exec i s with
    | .next t => execAll rest t
    | .fault f => .fault f
    | .refused q => .refused q

/-- The commands whose combined effect DECODE has (R69). -/
def decodeCommands : List Instr := [.load] ++ List.replicate 16 .round ++ [.finish, .check]

/-- The commands of one round (R59). -/
def roundCommands : List Instr := [.rot, .expand, .compress, .mix, .sbox, .pbox, .swap]

/-- Ring A, TLO[19:0] (R51). -/
def ringA (lo : BitVec 32) : BitVec 20 := lo.extractLsb' 0 20

/-- Ring B, the 20 bits of THI and TLO[31:20] (R51). -/
def ringB (lo : BitVec 32) (hi : BitVec 8) : BitVec 20 := hi ++ lo.extractLsb' 20 12

/-- TLO from the two rings (R51). -/
def loOfRings (a b : BitVec 20) : BitVec 32 := b.extractLsb' 0 12 ++ a

/-- THI from ring B (R51). -/
def hiOfRings (b : BitVec 20) : BitVec 8 := b.extractLsb' 12 8

/-- TLO after both rings have turned right by n. -/
def turnLo (n : Nat) (d : Datapath) : BitVec 32 :=
  loOfRings ((ringA d.tlo).rotateRight n) ((ringB d.tlo d.thi).rotateRight n)

/-- THI after both rings have turned right by n. -/
def turnHi (n : Nat) (d : Datapath) : BitVec 8 := hiOfRings ((ringB d.tlo d.thi).rotateRight n)

/-- The width column of R10. -/
def Reg.width : Reg → Nat
  | .id => 32
  | .ctrl => 1
  | .status => 8
  | .cmd => 32
  | .in0 => 32
  | .in1 => 32
  | .in2 => 16
  | .result => 24
  | .pt0 => 32
  | .pt1 => 8
  | .l => 24
  | .r => 24
  | .tlo => 32
  | .thi => 8
  | .round => 5
  | .expr => 30
  | .rkey => 30
  | .mix => 30
  | .grp => 30
  | .sbox => 20
  | .pbox => 24

/-- The registers that a bus write stores into while BUSY = 0 (R10: access RW; CTRL and STATUS have rules of their own). -/
def Reg.datapathRW : List Reg :=
  [.in0, .in1, .in2, .pt0, .pt1, .l, .r, .tlo, .thi, .round, .expr, .rkey, .mix, .sbox, .pbox]

/-- The coming cycle is a bus write of `v` to `reg`, outside reset. -/
def State.writesNext (s : State) (reg : Reg) (v : Word) : Prop :=
  s.nextPins.rstN = true ∧ s.nextPins.sel = true ∧ s.nextPins.we = true ∧
    regAt s.nextPins.addr = some reg ∧ s.nextPins.wdata = v

/-- A write of `w` to CMD while BUSY = 0 never does anything but set DONE (R44, R71). -/
def isNoOp (w : Word) : Prop := ∀ s : State, s.phase = .idle → busWrite 0x0C#8 w s = .next { s with done := true }

/-- A write of `w` to CMD while BUSY = 0 leaves every datapath register alone (R71). -/
def keepsDatapath (w : Word) : Prop :=
  ∀ s : State, s.phase = .idle → ∃ t, busWrite 0x0C#8 w s = .next t ∧ t.dp = s.dp

/-- `raise CmdError(code)` written out: the one effect of a rejected access (R75). -/
def State.withError (s : State) (code : ErrCode) : State :=
  { s with err := true, errcode := match s.err with
    | true => s.errcode
    | false => code }

end Sys2Proof.Machine
end

