-- ==== Sys2Proof/Certificates/Slice0/Obligations.lean ====
section
/-! DEFINITION. The statements for the provers, from the numbered rules of spec/. Each docstring names the rule it
formalises; OBLIGATIONS.json lists them. -/

open Sys2Proof Sys2Proof.Machine

/-! ### Encoding (30_encoding.md) -/

/-- Every well-formed command is decoded from its own word (R40, R41, R42). -/
def Obligations.DecodeOfEncodeIsTheCommand : Prop :=
  ∀ i : Instr, i.wellFormed = true → decodeWord (encode i) = .ok i

/-- A word that decodes is the word of the command it decodes to: no bit is dropped (R40). -/
def Obligations.EncodeOfDecodeIsTheWord : Prop :=
  ∀ (w : Word) (i : Instr), decodeWord w = .ok i → i.wellFormed = true ∧ encode i = w

/-- A word is in a row of spec/opcode_table.json exactly when it decodes to a command of that row. -/
def Obligations.RowsOfTheTableAreWhatDecodes : Prop :=
  ∀ (w : Word) (j : Instr), j.row.matches w = true ↔ ∃ i, decodeWord w = .ok i ∧ i.row = j.row

/-- R43: the Legal formula, its 18 words, and that they are the words that decode to one of the 15 commands. -/
def Obligations.LegalWordsAreTheEighteen : Prop :=
  ∀ w : Word,
    (legal w = true ↔ w.extractLsb' 0 4 ≠ 0xF#4 ∧
      ((w.extractLsb' 0 4 = 3#4 ∧ w.extractLsb' 6 26 = 0#26) ∨
        (w.extractLsb' 0 4 ≠ 3#4 ∧ w.extractLsb' 4 28 = 0#28))) ∧
    (legal w = true ↔ w.toNat ≤ 0xE ∨ w = 0x13#32 ∨ w = 0x23#32 ∨ w = 0x33#32) ∧
    (legal w = true ↔ ∃ i, decodeWord w = .ok i ∧ ∀ v, i ≠ .reserved v)

/-- Words written out from R41 and R42, one for each opcode. -/
def Obligations.WrittenOutWordsDecode : Prop :=
  decodeWord 0x00000000#32 = .ok .nop ∧ decodeWord 0x00000001#32 = .ok .load ∧
  decodeWord 0x00000002#32 = .ok .rot ∧ decodeWord 0x00000023#32 = .ok (.roti 2#2) ∧
  decodeWord 0x00000004#32 = .ok .expand ∧ decodeWord 0x00000005#32 = .ok .compress ∧
  decodeWord 0x00000006#32 = .ok .mix ∧ decodeWord 0x00000007#32 = .ok .sbox ∧
  decodeWord 0x00000008#32 = .ok .pbox ∧ decodeWord 0x00000009#32 = .ok .swap ∧
  decodeWord 0x0000000A#32 = .ok .round ∧ decodeWord 0x0000000B#32 = .ok .finish ∧
  decodeWord 0x0000000C#32 = .ok .check ∧ decodeWord 0x0000000D#32 = .ok .decode ∧
  decodeWord 0x0000000E#32 = .ok .clear ∧ decodeWord 0xFFFFFFFF#32 = .ok (.reserved 0xFFFFFFFF#32)

/-! ### Acceptance and errors (30_encoding.md R44, R45; 60_exceptions.md R75 to R77) -/

/-- R44: an illegal word, the reserved opcode's among them, raises CmdError(1) and changes nothing else; the words that
never do anything but set DONE are those of NOP and ROTI 0, so no illegal word is one of them. -/
def Obligations.IllegalWordsRaiseIllegalCmd : Prop :=
  (∀ (s : State) (w : Word), s.phase = .idle →
    (legal w = false → busWrite 0x0C#8 w s = .next (s.withError .illegalCmd)) ∧
    exec (.reserved w) s = .next (s.withError .illegalCmd)) ∧
  (∀ w : Word, w.extractLsb' 0 4 = 0xF#4 → legal w = false) ∧
  ∀ w : Word, isNoOp w ↔ w = 0x0#32 ∨ w = 0x3#32

/-- R45 and R77: the three checks of a CMD write in their order, and what an accepted command does to the status. -/
def Obligations.CommandChecksRunInOrder : Prop :=
  ∀ (s : State) (w : Word),
    (s.phase ≠ .idle → busWrite 0x0C#8 w s = .next (s.withError .busy)) ∧
    (s.phase = .idle → legal w = false → busWrite 0x0C#8 w s = .next (s.withError .illegalCmd)) ∧
    (s.phase = .idle → s.dp.round = 0#5 → (w = 2#32 ∨ w = 9#32 ∨ w = 0xA#32) →
      busWrite 0x0C#8 w s = .next (s.withError .badRound)) ∧
    (s.phase = .idle → legal w = true → (s.dp.round ≠ 0#5 ∨ w ≠ 2#32 ∧ w ≠ 9#32 ∧ w ≠ 0xA#32) →
      ∃ d, busWrite 0x0C#8 w s = .next { s with
        dp := d
        done := w != 0xD#32
        phase := if w = 0xD#32 then .load else .idle })

/-- R75: the first error since ERR was cleared is the one ERRCODE keeps, and nothing but ERR and ERRCODE changes. -/
def Obligations.FirstErrorCodeIsKept : Prop :=
  ∀ (s : State) (c c' : ErrCode),
    (s.err = false → s.raiseCmdError c = { s with err := true, errcode := c }) ∧
    (s.err = true → s.raiseCmdError c = s) ∧
    (s.raiseCmdError c).raiseCmdError c' = s.raiseCmdError c

/-! ### The commands (40_loader.md to 44_control.md): result, frame and completion -/

/-- R71: NOP changes DONE alone, and is rejected like any other command while BUSY = 1; the writes of legal words that
leave the datapath alone whatever it holds are those of NOP, of ROTI 0, and of DECODE, whose effect on the datapath is its
engine's (R69). -/
def Obligations.NopOnlySetsDone : Prop :=
  encode .nop = 0#32 ∧
  (∀ w : Word, legal w = true → 
    (keepsDatapath w ↔ w = encode .nop ∨ w = encode (.roti 0) ∨ w = encode .decode)) ∧
  ∀ s : State,
    (s.phase = .idle → exec .nop s = .next { s with done := true }) ∧
    (s.phase ≠ .idle → exec .nop s = .next (s.withError .busy))

/-- R72: CLEAR zeroes the seventeen datapath registers, sets DONE, and leaves IE, ERR and ERRCODE alone. -/
def Obligations.ClearZeroesTheDatapath : Prop :=
  encode .clear = 0xE#32 ∧
  ∀ s : State, s.phase = .idle →
    exec .clear s = .next { s with
      dp := { in0 := 0, in1 := 0, in2 := 0, result := 0, pt0 := 0, pt1 := 0, l := 0, r := 0, tlo := 0, thi := 0,
              round := 0, expr := 0, rkey := 0, mix := 0, grp := 0, sbox := 0, pbox := 0 }
      done := true }

/-- R48 and R49: LOAD in terms of the bits of the input registers; ROUND is 16 and no other register changes. -/
def Obligations.LoadSplitsTheInputBuffer : Prop :=
  encode .load = 1#32 ∧
  ∀ s : State, s.phase = .idle →
    exec .load s = .next { s with
      dp := { s.dp with
        tlo := s.dp.in2.extractLsb' 0 8 ++ s.dp.in1.extractLsb' 8 24
        thi := s.dp.in2.extractLsb' 8 8
        l := 0#4 ++ s.dp.in0.extractLsb' 0 20
        r := 0#4 ++ s.dp.in1.extractLsb' 0 8 ++ s.dp.in0.extractLsb' 20 12
        round := 16#5 }
      done := true }

/-- R51: with ROT_BIT20_MODE = COPY, RotStep turns the two 20-bit rings right by one bit each; the bit-move table. -/
def Obligations.RotStepTurnsTwoRings : Prop :=
  ∀ (lo : BitVec 32) (hi : BitVec 8),
    let t := rotStep .copy (lo, hi)
    ringA t.1 = (ringA lo).rotateRight 1 ∧
    ringB t.1 t.2 = (ringB lo hi).rotateRight 1 ∧
    (∀ i ≤ 18, bit t.1 i = bit lo (i + 1)) ∧
    bit t.1 19 = bit lo 0 ∧
    (∀ i, 20 ≤ i → i ≤ 30 → bit t.1 i = bit lo (i + 1)) ∧
    bit t.1 31 = bit hi 0 ∧
    (∀ i ≤ 6, bit t.2 i = bit hi (i + 1)) ∧
    bit t.2 7 = bit lo 20

/-- R51, R52: twenty RotSteps restore the time register, and the amounts of rounds 16 to 1 add up to twenty. -/
def Obligations.TwentyRotStepsRestoreTheTimeRegister : Prop :=
  (∀ t : BitVec 32 × BitVec 8, rotSteps .copy 20 t = t) ∧
  ((List.range 16).map fun k => rotAmount Config.params (BitVec.ofNat 5 (k + 1))).sum = 20

/-- R52, R53: ROT turns both rings by 2 in rounds 16, 8, 7 and 3 and by 1 in the others; with ROUND = 0 it raises
BAD_ROUND and nothing else changes. -/
def Obligations.RotTurnsBothRings : Prop :=
  encode .rot = 2#32 ∧
  ∀ s : State, s.phase = .idle →
    (s.dp.round = 0#5 → exec .rot s = .next (s.withError .badRound)) ∧
    (∀ n, s.dp.round ≠ 0#5 →
      n = (if s.dp.round = 16#5 ∨ s.dp.round = 8#5 ∨ s.dp.round = 7#5 ∨ s.dp.round = 3#5 then 2 else 1) →
      exec .rot s = .next { s with
        dp := { s.dp with tlo := turnLo n s.dp, thi := turnHi n s.dp }, done := true })

/-- R54: ROTI n turns both rings by n, whatever ROUND holds, and changes nothing else but DONE. -/
def Obligations.RotiTurnsBothRingsByCnt : Prop :=
  (encode (.roti 0) = 0x03#32 ∧ encode (.roti 1) = 0x13#32 ∧ encode (.roti 2) = 0x23#32 ∧
    encode (.roti 3) = 0x33#32) ∧
  ∀ (s : State) (n : BitVec 2), s.phase = .idle →
    exec (.roti n) s = .next { s with
      dp := { s.dp with tlo := turnLo n.toNat s.dp, thi := turnHi n.toNat s.dp }, done := true }

/-- R55: EXPAND copies R[19:0] and sets bit 20+i exactly when some bit of R[19:0] is selected by EXP[i]. -/
def Obligations.ExpandSelectsByMask : Prop :=
  encode .expand = 4#32 ∧
  ∀ s : State, s.phase = .idle → ∃ e : BitVec 30,
    exec .expand s = .next { s with dp := { s.dp with expr := e }, done := true } ∧
    (∀ i < 20, bit e i = bit s.dp.r i) ∧
    (∀ i : Fin 10, bit e (20 + i.val) = true ↔
      ∃ j < 20, bit s.dp.r j = true ∧ bit (Config.params.tables.exp.get i) j = true)

/-- R56: COMPRESS sets bit i exactly when TLO meets CMP_LO[i] or THI meets CMP_HI[i]. -/
def Obligations.CompressSelectsByMask : Prop :=
  encode .compress = 5#32 ∧
  ∀ s : State, s.phase = .idle → ∃ k : BitVec 30,
    exec .compress s = .next { s with dp := { s.dp with rkey := k }, done := true } ∧
    ∀ i : Fin 30, bit k i.val = true ↔
      (∃ j, bit s.dp.tlo j = true ∧ bit (Config.params.tables.cmpLo.get i) j = true) ∨
      (∃ j, bit s.dp.thi j = true ∧ bit (Config.params.tables.cmpHi.get i) j = true)

/-- R57: MIX is the XOR of EXPR and RKEY, and EXPR bits 23:20 become 0. -/
def Obligations.MixXorsAndClearsTheNibble : Prop :=
  encode .mix = 6#32 ∧
  ∀ s : State, s.phase = .idle → ∃ m e : BitVec 30,
    exec .mix s = .next { s with dp := { s.dp with mix := m, expr := e }, done := true } ∧
    (∀ i < 30, bit m i = (bit s.dp.expr i != bit s.dp.rkey i)) ∧
    (∀ i < 30, bit e i = (bit s.dp.expr i && !(decide (20 ≤ i) && decide (i ≤ 23))))

/-- R60: Regroup in closed form, field by field; and no two values regroup to the same one. -/
def Obligations.RegroupHasTheClosedForm : Prop :=
  (∀ (m : BitVec 30), ∀ j < 5,
    bit (regroup m) (6 * j) = bit m (4 * j) ∧
    bit (regroup m) (6 * j + 1) = bit m (4 * j + 1) ∧
    bit (regroup m) (6 * j + 2) = bit m (4 * j + 2) ∧
    bit (regroup m) (6 * j + 3) = bit m (4 * j + 3) ∧
    bit (regroup m) (6 * j + 4) = bit m (20 + 2 * j) ∧
    bit (regroup m) (6 * j + 5) = bit m (20 + 2 * j + 1)) ∧
  (∀ m m' : BitVec 30, regroup m = regroup m' → m = m')

/-- R61 to R63: SBOX writes GRP and the five nibbles at their places; lookup k reads field 5−k. -/
def Obligations.SboxLooksUpFiveFields : Prop :=
  encode .sbox = 7#32 ∧
  ∀ s : State, s.phase = .idle → ∃ (g : BitVec 30) (x : BitVec 20),
    exec .sbox s = .next { s with dp := { s.dp with grp := g, sbox := x }, done := true } ∧
    g = regroup s.dp.mix ∧
    (∀ b < 4,
      bit x b = bit (Config.params.tables.sb1.get (g.extractLsb' 24 6).toFin) b ∧
      bit x (8 + b) = bit (Config.params.tables.sb1.get (g.extractLsb' 18 6).toFin) (4 + b) ∧
      bit x (4 + b) = bit (Config.params.tables.sb2.get (g.extractLsb' 12 6).toFin) b ∧
      bit x (16 + b) = bit (Config.params.tables.sb2.get (g.extractLsb' 6 6).toFin) (4 + b) ∧
      bit x (12 + b) = bit (Config.params.tables.sb3.get (g.extractLsb' 0 6).toFin) b)

/-- R64: PBOX presets bits 23:20 and sets bit i < 20 exactly when SBOX meets PERM[i] in bits 19:0. -/
def Obligations.PboxSelectsByMask : Prop :=
  encode .pbox = 8#32 ∧
  ∀ s : State, s.phase = .idle → ∃ p : BitVec 24,
    exec .pbox s = .next { s with dp := { s.dp with pbox := p }, done := true } ∧
    p.extractLsb' 20 4 = 0xF#4 ∧
    ∀ i : Fin 20, bit p i.val = true ↔
      ∃ j < 20, bit s.dp.sbox j = true ∧ bit (Config.params.tables.perm.get i) j = true

/-- R58: SWAP moves R to L and PBOX XOR L to R and counts ROUND down; with ROUND = 0 it raises BAD_ROUND and nothing else
changes. -/
def Obligations.SwapExchangesTheHalves : Prop :=
  encode .swap = 9#32 ∧
  ∀ s : State, s.phase = .idle →
    (s.dp.round = 0#5 → exec .swap s = .next (s.withError .badRound)) ∧
    (s.dp.round ≠ 0#5 → exec .swap s = .next { s with
      dp := { s.dp with l := s.dp.r, r := s.dp.pbox ^^^ s.dp.l, round := BitVec.ofNat 5 (s.dp.round.toNat - 1) }
      done := true })

/-- R59: ROUND leaves the state that ROT, EXPAND, COMPRESS, MIX, SBOX, PBOX and SWAP leave one after another; it writes the
eleven registers of its rule and no other. With ROUND = 0 it raises BAD_ROUND and nothing else changes. -/
def Obligations.RoundIsTheSevenCommands : Prop :=
  encode .round = 0xA#32 ∧
  ∀ s : State, s.phase = .idle →
    (s.dp.round = 0#5 → exec .round s = .next (s.withError .badRound)) ∧
    (s.dp.round ≠ 0#5 → ∃ t,
      exec .round s = .next t ∧ execAll roundCommands s = .next t ∧
      t.dp.round.toNat = s.dp.round.toNat - 1 ∧
      t = { s with
        dp := { t.dp with
          in0 := s.dp.in0, in1 := s.dp.in1, in2 := s.dp.in2, result := s.dp.result, pt0 := s.dp.pt0, pt1 := s.dp.pt1 }
        done := true })

/-- R65 and R66: FINISH packs the low 20 bits of L and R into PT0 and PT1 and changes nothing else but DONE. -/
def Obligations.FinishPacksTheHalves : Prop :=
  encode .finish = 0xB#32 ∧
  ∀ s : State, s.phase = .idle →
    exec .finish s = .next { s with
      dp := { s.dp with
        pt0 := s.dp.r.extractLsb' 4 8 ++ s.dp.r.extractLsb' 0 4 ++ s.dp.l.extractLsb' 16 4 ++ s.dp.l.extractLsb' 8 8 ++
          s.dp.l.extractLsb' 0 8
        pt1 := s.dp.r.extractLsb' 12 8 }
      done := true }

/-- R67 and R68: CHECK writes the sentinel, or the payload under the success flag; VALID follows. -/
def Obligations.CheckValidatesTheChecksum : Prop :=
  encode .check = 0xC#32 ∧
  ∀ s : State, s.phase = .idle → ∃ t,
    exec .check s = .next t ∧
    t = { s with dp := { s.dp with result := t.dp.result }, done := true } ∧
    (s.dp.pt0.extractLsb' 4 16 ≠ 0x2501#16 → t.dp.result = 0x200001#24) ∧
    (s.dp.pt0.extractLsb' 4 16 = 0x2501#16 →
      t.dp.result = 1#2 ++ s.dp.pt0.extractLsb' 0 2 ++ s.dp.pt1 ++ s.dp.pt0.extractLsb' 20 12) ∧
    (t.valid = true ↔ s.dp.pt0.extractLsb' 4 16 = 0x2501#16)

/-- R45, R69: DECODE is accepted with any ROUND; acceptance clears DONE and starts the engine and changes nothing else. -/
def Obligations.DecodeStartsTheEngine : Prop :=
  encode .decode = 0xD#32 ∧
  ∀ s : State, s.phase = .idle →
    exec .decode s = .next { s with done := false, phase := .load } ∧
    ({ s with done := false, phase := .load } : State).busy = true

/-- The zero table set Z of 95_test_vectors.md: Expand keeps R[19:0], Compress and Substitute give 0, Permute gives
0xF00000 (R55, R56, R63, R64). Holds for both field orders. The zero tables are the spec's own test set, not the cipher's. -/
def Obligations.ZeroTablesAreInert : Prop :=
  ∀ p : Params,
    p.tables = { exp := Vector.replicate 10 0, cmpLo := Vector.replicate 30 0, cmpHi := Vector.replicate 30 0,
                 perm := Vector.replicate 20 0, sb1 := Vector.replicate 64 0, sb2 := Vector.replicate 64 0,
                 sb3 := Vector.replicate 64 0 } →
    (∀ r : BitVec 24, expandR p.tables r = 0#10 ++ r.extractLsb' 0 20) ∧
    (∀ (lo : BitVec 32) (hi : BitVec 8), compressKey p.tables lo hi = 0#30) ∧
    (∀ g : BitVec 30, substituteGroups p g = 0#20) ∧
    (∀ x : BitVec 20, permuteBits p.tables x = 0xF00000#24)

/-! ### The engine (44_control.md) -/

/-- R70: each engine step does what the command of its phase does, moves the phase on, and sets DONE at CHECK alone. -/
def Obligations.EngineStepsPerformTheCommands : Prop :=
  ∀ s : State,
    (s.phase = .load → ∃ t, exec .load { s with phase := .idle } = .next t ∧
      engineStep s = .next { s with dp := t.dp, phase := .rounds }) ∧
    (s.phase = .rounds → s.dp.round ≠ 0#5 → ∃ t, exec .round { s with phase := .idle } = .next t ∧
      engineStep s = .next { s with dp := t.dp, phase := if t.dp.round = 0#5 then .finish else .rounds }) ∧
    (s.phase = .finish → ∃ t, exec .finish { s with phase := .idle } = .next t ∧
      engineStep s = .next { s with dp := t.dp, phase := .check }) ∧
    (s.phase = .check → ∃ t, exec .check { s with phase := .idle } = .next t ∧
      engineStep s = .next { s with dp := t.dp, phase := .idle, done := true })

/-- R69: DECODE and its 19 engine steps leave exactly the state of LOAD, sixteen ROUNDs, FINISH and CHECK. -/
def Obligations.DecodeEqualsItsCommandSequence : Prop :=
  ∀ s : State, s.phase = .idle → ∃ t u,
    exec .decode s = .next t ∧ engineSteps 19 t = .next u ∧ execAll decodeCommands s = .next u

/-- R52, R69: after a DECODE, ROUND is 0, TLO and THI hold the key bytes LOAD gave them, IN0 to IN2 are unchanged, and
RESULT is the sentinel or a success value whose payload is L[1:0] and R[19:0] (R68). -/
def Obligations.DecodeEndState : Prop :=
  ∀ s : State, s.phase = .load → ∃ u,
    engineSteps 19 s = .next u ∧ u.phase = .idle ∧ u.done = true ∧ u.dp.round = 0#5 ∧
    u.dp.tlo = s.dp.in2.extractLsb' 0 8 ++ s.dp.in1.extractLsb' 8 24 ∧ u.dp.thi = s.dp.in2.extractLsb' 8 8 ∧
    u.dp.in0 = s.dp.in0 ∧ u.dp.in1 = s.dp.in1 ∧ u.dp.in2 = s.dp.in2 ∧
    u.dp.result = if u.dp.l.extractLsb' 4 16 = 0x2501#16
      then 1#2 ++ u.dp.l.extractLsb' 0 2 ++ u.dp.r.extractLsb' 0 20 else 0x200001#24

/-- R69: what a DECODE leaves in every datapath register depends on IN0, IN1 and IN2 alone (and on the tables). -/
def Obligations.DecodeDependsOnlyOnTheInput : Prop :=
  ∀ s s' : State, s.phase = .load → s'.phase = .load →
    s.dp.in0 = s'.dp.in0 → s.dp.in1 = s'.dp.in1 → s.dp.in2 = s'.dp.in2 →
    ∃ u u', engineSteps 19 s = .next u ∧ engineSteps 19 s' = .next u' ∧ u.dp = u'.dp

/-- R70, R75: while the engine runs, no bus access changes a register it uses: after a cycle outside reset, the datapath
and PHASE are the engine step's, or unchanged in a cycle without one (which cycles carry one is the model's pace, Log 3). -/
def Obligations.BusAccessesDoNotDisturbADecode : Prop :=
  ∀ s t : State, s.phase ≠ .idle → s.nextPins.rstN = true → step s = .next t →
    (s.engineReady = true → ∃ u, engineStep s = .next u ∧ t.dp = u.dp ∧ t.phase = u.phase) ∧
    (s.engineReady = false → t.dp = s.dp ∧ t.phase = s.phase)

/-- R70, R73, R88 (the pace is a field of the model's own, Log 3): at the reference pace a DECODE just accepted is BUSY
for exactly 19 cycles, whatever the host does meanwhile short of reset, and ends with DONE and the registers that the
engine alone gives. -/
def Obligations.DecodeEndsAfterNineteenCycles : Prop :=
  ∀ s : State, s.phase = .load → s.pace = [] → (∀ p, HostItem.pins p ∈ s.host → p.rstN = true) →
    (∀ k < Config.params.decodeCycles, ∃ t, core.run k s = .next t ∧ t.busy = true) ∧
    ∃ t u, core.run Config.params.decodeCycles s = .next t ∧ t.busy = false ∧ t.done = true ∧
      engineSteps 19 s = .next u ∧ t.dp = u.dp

/-! ### The register port (20_memory.md, 10_state.md) -/

/-- R33: a reserved offset reads 0 and ignores writes, whatever BUSY is. -/
def Obligations.ReservedOffsetsAreInert : Prop :=
  ∀ (s : State) (addr : BitVec 8) (v : Word), 0x54 ≤ addr.toNat →
    busRead addr s = (0#32, s) ∧ busWrite addr v s = .next s

/-- R32: `addr[1:0]` is ignored. -/
def Obligations.LowAddressBitsAreIgnored : Prop :=
  ∀ (s : State) (a b : BitVec 8) (v : Word), a.extractLsb' 2 6 = b.extractLsb' 2 6 →
    busRead a s = busRead b s ∧ busWrite a v s = busWrite b v s

/-- R11, R36: while BUSY = 0 a write of a datapath register (ROUND apart) reads back cut to its width, and every other
offset reads as before; IE, DONE, ERR, ERRCODE and PHASE are unchanged. -/
def Obligations.RegisterWritesReadBack : Prop :=
  ∀ (s : State) (reg : Reg) (v : Word), s.phase = .idle → reg ∈ Reg.datapathRW → reg ≠ .round → ∃ d,
    busWrite reg.offset v s = .next { s with dp := d } ∧
    busRead reg.offset { s with dp := d } = ((v.setWidth reg.width).setWidth 32, { s with dp := d }) ∧
    ∀ q : Reg, q ≠ reg → (busRead q.offset { s with dp := d }).1 = (busRead q.offset s).1

/-- R22: a write of ROUND stores bits 4:0 if they are at most 16, else it is ignored; nothing else changes. -/
def Obligations.RoundIsWriteAnyReadLegal : Prop :=
  ∀ (s : State) (v : Word), s.phase = .idle →
    (v.toNat % 32 ≤ 16 →
      busWrite 0x38#8 v s = .next { s with dp := { s.dp with round := BitVec.ofNat 5 (v.toNat % 32) } }) ∧
    (16 < v.toNat % 32 → busWrite 0x38#8 v s = .next s)

/-- R11, R12, R31: writes to ID, RESULT and GRP have no effect and raise no error, whatever BUSY is; ID always reads its
constant and CMD reads 0. -/
def Obligations.ReadOnlyRegistersIgnoreWrites : Prop :=
  ∀ (s : State) (v : Word),
    busWrite Reg.id.offset v s = .next s ∧ busWrite Reg.result.offset v s = .next s ∧
    busWrite Reg.grp.offset v s = .next s ∧
    busRead Reg.id.offset s = (0x4D524401#32, s) ∧ busRead Reg.cmd.offset s = (0#32, s)

/-- R30, R36: while BUSY = 0 a read of a register returns the register's own value with zeros above its width (R10, R11;
the fields of STATUS are StatusReadsItsFields), a read of any offset changes nothing, and no bit above a register's width
reads as 1. -/
def Obligations.IdleReadsAreExactAndPure : Prop :=
  ∀ s : State, s.phase = .idle →
    (∀ reg : Reg, (busRead reg.offset s).1 = match reg with
      | .id => 0x4D524401#32
      | .ctrl => 0#31 ++ BitVec.ofBool s.ie
      | .status => s.statusWord
      | .cmd => 0#32
      | .in0 => s.dp.in0
      | .in1 => s.dp.in1
      | .in2 => 0#16 ++ s.dp.in2
      | .result => 0#8 ++ s.dp.result
      | .pt0 => s.dp.pt0
      | .pt1 => 0#24 ++ s.dp.pt1
      | .l => 0#8 ++ s.dp.l
      | .r => 0#8 ++ s.dp.r
      | .tlo => s.dp.tlo
      | .thi => 0#24 ++ s.dp.thi
      | .round => 0#27 ++ s.dp.round
      | .expr => 0#2 ++ s.dp.expr
      | .rkey => 0#2 ++ s.dp.rkey
      | .mix => 0#2 ++ s.dp.mix
      | .grp => 0#2 ++ s.dp.grp
      | .sbox => 0#12 ++ s.dp.sbox
      | .pbox => 0#8 ++ s.dp.pbox) ∧
    ∀ addr : BitVec 8, (busRead addr s).2 = s ∧
      ∀ reg, regAt addr = some reg → (busRead addr s).1.toNat < 2 ^ reg.width

/-- R14, R15, R30: the STATUS word bit by bit; VALID is RESULT[22] while BUSY = 0 and a free bit while BUSY = 1 (that
the draw is indexed by `draws` is the model's choice, Log 6, Log 7; it holds for every value of the free bit). -/
def Obligations.StatusReadsItsFields : Prop :=
  ∀ s : State,
    let w := (busRead 0x08#8 s).1
    bit w 0 = s.busy ∧ bit w 1 = s.done ∧ bit w 2 = s.err ∧
    bit w 3 = (if s.phase = .idle then bit s.dp.result 22 else Config.freeBit s.draws) ∧
    w.extractLsb' 4 4 = (match s.errcode with
      | .none => 0#4
      | .illegalCmd => 1#4
      | .badRound => 2#4
      | .busy => 3#4) ∧
    w.extractLsb' 8 24 = 0#24

/-- R14, R78, R79: a write to STATUS clears DONE by bit 1, ERR and ERRCODE by bit 2, and nothing else, whatever BUSY is. -/
def Obligations.StatusWritesAcknowledge : Prop :=
  ∀ (s : State) (v : Word), ∃ done err errcode,
    busWrite 0x08#8 v s = .next { s with done := done, err := err, errcode := errcode } ∧
    (bit v 1 = true → done = false) ∧ (bit v 1 = false → done = s.done) ∧
    (bit v 2 = true → err = false ∧ errcode = .none) ∧ (bit v 2 = false → err = s.err ∧ errcode = s.errcode)

/-- R13: CTRL holds IE alone: a write stores bit 0 whatever BUSY is, and a read gives it back in bit 0 with the other bits
0. -/
def Obligations.CtrlHoldsTheInterruptEnable : Prop :=
  State.reset.ie = false ∧
  ∀ (s : State) (v : Word),
    busWrite 0x04#8 v s = .next { s with ie := bit v 0 } ∧
    busRead 0x04#8 s = (if s.ie then 1#32 else 0#32, s)

/-- R80: irq is IE and (DONE or ERR); clearing both through STATUS, or IE, clears it; it is 0 after reset. -/
def Obligations.InterruptLineIsALevel : Prop :=
  State.reset.irq = false ∧
  ∀ s : State,
    (s.irq = true ↔ s.ie = true ∧ (s.done = true ∨ s.err = true)) ∧
    (∀ v : Word, bit v 1 = true → bit v 2 = true → ∃ t, busWrite 0x08#8 v s = .next t ∧ t.irq = false) ∧
    (∀ v : Word, bit v 0 = false → ∃ t, busWrite 0x04#8 v s = .next t ∧ t.irq = false)

/-- R31, R76, R90: while BUSY = 1 a write to CMD or to a datapath register is dropped with code 3, and so is every
command. -/
def Obligations.BusyWritesAreDropped : Prop :=
  ∀ s : State, s.phase ≠ .idle →
    (∀ (reg : Reg) (v : Word), reg = .cmd ∨ reg ∈ Reg.datapathRW →
      busWrite reg.offset v s = .next (s.withError .busy)) ∧
    (∀ i : Instr, exec i s = .next (s.withError .busy))

/-- R89: while BUSY = 1 a read of offsets 0x1C to 0x50 is a free word, STATUS.VALID a free bit, and no register changes;
ID, CTRL, the other bits of STATUS, IN0 to IN2 and the reserved offsets are exact. Holds for every value of the free
word and bit; that a draw is indexed by `draws` is the model's choice (Log 6, Log 7). -/
def Obligations.BusyReadsAreFreeOrExact : Prop :=
  ∀ s : State, s.phase ≠ .idle →
    (∀ addr : BitVec 8, 0x1C ≤ addr.toNat → addr.toNat < 0x54 →
      busRead addr s = (Config.freeWord s.draws, { s with draws := s.draws + 1 })) ∧
    busRead 0x00#8 s = (0x4D524401#32, s) ∧
    busRead 0x04#8 s = (if s.ie then 1#32 else 0#32, s) ∧
    busRead 0x10#8 s = (s.dp.in0, s) ∧ busRead 0x14#8 s = (s.dp.in1, s) ∧
    busRead 0x18#8 s = (0#16 ++ s.dp.in2, s) ∧
    (∃ w, busRead 0x08#8 s = (w, { s with draws := s.draws + 1 }) ∧ bit w 3 = Config.freeBit s.draws ∧
      ∀ i ≠ 3, bit w i = bit s.statusWord i) ∧
    (∀ addr : BitVec 8, 0x54 ≤ addr.toNat → busRead addr s = (0#32, s))

/-! ### The step (60_exceptions.md R81, 70_reset_and_hazards.md R85 to R88) -/

/-- A step whose access is a write performs that write, to whatever address (R29, R31), in the state in which the host and
the pace have moved on and rdata is 0; the engine's step follows if the engine was running when the cycle began and its
pace says so (R81; that the cycle of a DECODE's own write has no engine step is R88, Log 2). If the address is CMD's and
the word is a command's, the write is that command. The host's list and the pace are the model's choice (Log 1, Log 3). -/
def Obligations.StepRunsTheDecodedCommand : Prop :=
  ∀ (s : State) (p : PortPins) (rest : List HostItem),
    s.host = .pins p :: rest → p.rstN = true → p.sel = true → p.we = true →
    let s' := { s with host := rest, pace := s.pace.tail, rdata := 0#32 }
    (s.phase = .idle → step s = busWrite p.addr p.wdata s') ∧
    (s.phase ≠ .idle → ∃ t, busWrite p.addr p.wdata s' = .next t ∧
      step s = if s.pace.headD true = true then engineStep t else .next t) ∧
    ∀ i, p.addr.extractLsb' 2 6 = 3#6 → decodeWord p.wdata = .ok i → busWrite p.addr p.wdata s' = exec i s'

/-- The access of a cycle comes before its engine step (R29, R81): a read puts its word on rdata, and a read of STATUS in
the cycle of the last step still sees BUSY = 1; a cycle with no read leaves rdata 0; and whatever the access of the last
step's cycle is, a write of 1 to STATUS bit 1 among them, DONE ends 1. -/
def Obligations.AccessComesBeforeTheEngineStep : Prop :=
  ∀ (s t : State) (p : PortPins) (rest : List HostItem),
    s.host = .pins p :: rest → p.rstN = true → step s = .next t →
    (p.sel = true → p.we = false → t.rdata = (busRead p.addr s).1) ∧
    (p.sel = false ∨ p.we = true → t.rdata = 0#32) ∧
    (p.sel = true → p.we = false → p.addr.extractLsb' 2 6 = 2#6 → s.phase = .check → bit t.rdata 0 = true) ∧
    (s.phase = .check → s.pace.headD true = true → t.done = true ∧ t.phase = .idle)

/-- R85, R86: a cycle with rst_n = 0 gives every register and PHASE its reset value, stops a DECODE, performs no access
(a read returns 0 on rdata) and leaves irq 0, whatever the other pins carry. -/
def Obligations.ResetCycleResetsEverything : Prop :=
  ∀ (s : State) (p : PortPins) (rest : List HostItem), s.host = .pins p :: rest → p.rstN = false →
    ∃ t, step s = .next t ∧ t.dp = State.reset.dp ∧ t.ie = false ∧ t.phase = .idle ∧ t.done = false ∧ t.err = false ∧
      t.errcode = .none ∧ t.rdata = 0#32 ∧ t.irq = false

/-- R27: after reset every register reads its reset value; the hidden PHASE is IDLE and irq is 0. -/
def Obligations.ResetValues : Prop :=
  (∀ addr : BitVec 8, (busRead addr State.reset).1 = if addr.toNat < 4 then 0x4D524401#32 else 0#32) ∧
  State.reset.phase = .idle ∧ State.reset.irq = false

/-- R46 (WAIT as an item of the host's list is the model's choice, Log 14): WAIT reads STATUS in every cycle and ends with
the first read that returns BUSY = 0; it stays while BUSY reads 1. -/
def Obligations.WaitPollsUntilIdle : Prop :=
  ∀ (s t : State) (rest : List HostItem), s.host = .wait :: rest → step s = .next t →
    t.rdata = (busRead 0x08#8 s).1 ∧
    (bit t.rdata 0 = true → t.host = .wait :: rest) ∧ (bit t.rdata 0 = false → t.host = rest)

/-! ### Whole-machine rules -/

/-- The legal states (R15, R18, R22, R70, R76, R78) hold the state after reset, and so do those of a design with any
parameters as to its held cycles (the model's own count, Log 3). -/
def Obligations.ResetStateIsLegal : Prop := State.reset.Legal ∧ ∀ par, State.reset.HeldLegal par

/-- Every step keeps a legal state legal; with any parameters a cycle is counted as held back only in a DECODE that has not
taken its first step; and a reset cycle leaves no such count of the DECODE it stops, from any state (R86, R88; the count is
the model's own, Log 3). -/
def Obligations.StepKeepsStatesLegal : Prop :=
  (∀ s t : State, s.Legal → step s = .next t → t.Legal) ∧
  (∀ (par : Params) (s t : State), s.HeldLegal par → stepWith par s = .next t → t.HeldLegal par) ∧
  ∀ (par : Params) (s : State), s.nextPins.rstN = false → ∃ t, stepWith par s = .next t ∧ t.phase = .idle ∧ t.held = 0

/-- R74, R81: from a legal state the machine never stops. -/
def Obligations.LegalStatesAlwaysStep : Prop :=
  ∀ s : State, s.Legal → ∃ t, step s = .next t

/-- The one stop of the model (Log 9): an engine step in PHASE = ROUNDS with ROUND = 0. No step refuses. -/
def Obligations.OnlyAnEngineStepAtRoundZeroStops : Prop :=
  ∀ s : State,
    (∀ q, step s ≠ .refused q) ∧
    ((∃ f, step s = .fault f) ↔
      s.nextPins.rstN = true ∧ s.engineReady = true ∧ s.phase = .rounds ∧ s.dp.round = 0#5)

/-- R79: nothing clears ERR but reset and a write of 1 to STATUS bit 2. -/
def Obligations.OnlyAcknowledgeOrResetClearsErr : Prop :=
  ∀ s t : State, step s = .next t → s.err = true → t.err = false →
    s.nextPins.rstN = false ∨ ∃ v, s.writesNext .status v ∧ bit v 2 = true

/-- R78: nothing clears DONE but reset, a write of 1 to STATUS bit 1, and the acceptance of a DECODE. -/
def Obligations.DoneIsClearedOnlyByItsRules : Prop :=
  ∀ s t : State, step s = .next t → s.done = true → t.done = false →
    s.nextPins.rstN = false ∨ (∃ v, s.writesNext .status v ∧ bit v 1 = true) ∨
    (s.writesNext .cmd 0xD#32 ∧ s.phase = .idle)

/-- R17: only bus writes, CLEAR and reset change IN0 to IN2. -/
def Obligations.InputBufferChangesOnlyByItsRules : Prop :=
  ∀ s t : State, step s = .next t →
    (s.dp.in0, s.dp.in1, s.dp.in2) ≠ (t.dp.in0, t.dp.in1, t.dp.in2) →
    s.nextPins.rstN = false ∨
    (s.phase = .idle ∧
      (s.writesNext .cmd 0xE#32 ∨ ∃ v, s.writesNext .in0 v ∨ s.writesNext .in1 v ∨ s.writesNext .in2 v))

/-- R18: only CHECK (directly or within DECODE, in a cycle that carries an engine step, Log 3), CLEAR and reset write
RESULT. -/
def Obligations.ResultChangesOnlyByItsRules : Prop :=
  ∀ s t : State, step s = .next t → t.dp.result ≠ s.dp.result →
    s.nextPins.rstN = false ∨ (s.phase = .check ∧ s.engineReady = true) ∨
    (s.phase = .idle ∧ (s.writesNext .cmd 0xC#32 ∨ s.writesNext .cmd 0xE#32))

/-! ### Other parameters (00_scope.md R5) -/

/-- R5, R88: with any legal parameters, DECODE_CYCLES from 1 upwards, an accepted DECODE is BUSY for exactly DECODE_CYCLES
cycles, whatever the host does meanwhile short of reset, and ends with DONE, the registers that 19 engine steps give, and
no held cycle counted, ready for the next. The pace, the count of held cycles, and how the steps fall on the cycles are the
model's choice (Log 3). -/
def Obligations.DecodeTakesDecodeCycles : Prop :=
  ∀ (par : Params) (s t : State), par.legal = true → s.phase = .idle → s.HeldLegal par → s.pace = [] →
    (∀ p, HostItem.pins p ∈ s.host → p.rstN = true) → execWith par .decode s = .next t →
    (∀ k < par.decodeCycles, ∃ u : State, (coreWith par).run k t = .next u ∧ u.busy = true) ∧
    ∃ u v : State, (coreWith par).run par.decodeCycles t = .next u ∧ u.busy = false ∧ u.done = true ∧
      u.held = 0 ∧ engineStepsWith par 19 t = .next v ∧ u.dp = v.dp

/-- R5: the commands with any parameters. At this hardware's they are `exec`; ROT_BIT20_MODE = OR merges bit 20 (R50);
ROTI 1 is one RotStep and ROT turns by the amount that DOUBLE_ROT_ROUNDS gives (R52, R53); with SBOX_FIELD_ORDER =
ASCENDING lookup k reads field k−1 (R62); CHECK uses CHECK_CONST, FAIL_SENTINEL and SUCCESS_FLAG (R67). -/
def Obligations.ParametersHaveTheirMeaning : Prop :=
  (∀ i s, execWith Config.params i s = exec i s) ∧
  (∀ (lo : BitVec 32) (hi : BitVec 8),
    let t := rotStep .or (lo, hi)
    bit t.1 19 = (bit lo 20 || bit lo 0) ∧
    (∀ i ≤ 30, i ≠ 19 → bit t.1 i = bit lo (i + 1)) ∧ bit t.1 31 = bit hi 0 ∧
    (∀ i ≤ 6, bit t.2 i = bit hi (i + 1)) ∧ bit t.2 7 = bit lo 20) ∧
  ∀ (par : Params) (s : State), s.phase = .idle →
    (∀ t, t = rotStep par.rotBit20Mode (s.dp.tlo, s.dp.thi) → execWith par (.roti 1) s = .next { s with
      dp := { s.dp with tlo := t.1, thi := t.2 }, done := true }) ∧
    (s.dp.round ≠ 0#5 →
      execWith par .rot s = execWith par (.roti (if s.dp.round ∈ par.doubleRotRounds then 2 else 1)) s) ∧
    (par.sboxFieldOrder = .ascending → ∃ (g : BitVec 30) (x : BitVec 20),
      execWith par .sbox s = .next { s with dp := { s.dp with grp := g, sbox := x }, done := true } ∧
      g = regroup s.dp.mix ∧
      (∀ b < 4,
        bit x b = bit (par.tables.sb1.get (g.extractLsb' 0 6).toFin) b ∧
        bit x (8 + b) = bit (par.tables.sb1.get (g.extractLsb' 6 6).toFin) (4 + b) ∧
        bit x (4 + b) = bit (par.tables.sb2.get (g.extractLsb' 12 6).toFin) b ∧
        bit x (16 + b) = bit (par.tables.sb2.get (g.extractLsb' 18 6).toFin) (4 + b) ∧
        bit x (12 + b) = bit (par.tables.sb3.get (g.extractLsb' 24 6).toFin) b)) ∧
    ∃ r : BitVec 24, execWith par .check s = .next { s with dp := { s.dp with result := r }, done := true } ∧
      (s.dp.pt0.extractLsb' 4 16 ≠ par.checkConst → r = par.failSentinel) ∧
      (s.dp.pt0.extractLsb' 4 16 = par.checkConst →
        r = (0#2 ++ s.dp.pt0.extractLsb' 0 2 ++ s.dp.pt1 ++ s.dp.pt0.extractLsb' 20 12) ||| par.successFlag)
end

