-- ==== Sys2Proof/Laws/Bits.lean ====
section
/-! SUPPORT. The bits of a single-bit write (spec/00_scope.md rule R8) and of the mask selections (41_round_engine.md rules
R55 and R56, 42_sbox_pbox.md rule R64). -/

namespace Sys2Proof.Machine

open Sys2Proof

theorem getLsbD_writeBit {n : Nat} (v : BitVec n) (i j : Nat) (b : Bool) :
    (writeBit v i b).getLsbD j = if j = i ∧ j < n then b else v.getLsbD j := by
  have one : (1#n <<< i).getLsbD j = (decide (i < n) && decide (i = j)) := by
    rw [← BitVec.twoPow_eq, BitVec.getLsbD_twoPow]
  have out : v.getLsbD j = true → j < n := BitVec.lt_of_getLsbD
  unfold writeBit
  by_cases hj : j = i
  · subst hj
    by_cases hn : j < n
    · cases b <;> simp only [if_true, Bool.false_eq_true, if_false, BitVec.getLsbD_or, BitVec.getLsbD_and,
        BitVec.getLsbD_not, one] <;> simp [hn]
    · have : v.getLsbD j = false := by simpa [hn] using out
      cases b <;> simp only [if_true, Bool.false_eq_true, if_false, BitVec.getLsbD_or, BitVec.getLsbD_and,
        BitVec.getLsbD_not, one] <;> simp [hn, this]
  · have hne : ¬i = j := fun h => hj h.symm
    cases b <;> simp only [if_true, Bool.false_eq_true, if_false, BitVec.getLsbD_or, BitVec.getLsbD_and,
      BitVec.getLsbD_not, one] <;> simp [hj, hne]
    exact out

/-- Bit i of a value given bit by bit. -/
theorem getLsbD_ofFnLE_fin {n : Nat} (f : Fin n → Bool) (i : Fin n) : (BitVec.ofFnLE f).getLsbD i = f i := by
  simp

/-- A value meets a mask exactly when some bit is 1 in both (90_conflicts.md C4). -/
theorem meets_mask_iff {n : Nat} (a b : BitVec n) :
    ((a &&& b) != 0#n) = true ↔ ∃ j, a.getLsbD j = true ∧ b.getLsbD j = true := by
  rw [bne_iff_ne]
  constructor
  · intro h
    by_contra none_common
    refine h (BitVec.eq_of_getLsbD_eq fun i _ => ?_)
    cases ha : a.getLsbD i <;> cases hb : b.getLsbD i <;> simp only [BitVec.getLsbD_and, ha, hb] <;> simp
    exact none_common ⟨i, ha, hb⟩
  · rintro ⟨j, ha, hb⟩ h
    simpa [ha, hb] using congrArg (fun v => v.getLsbD j) h

end Sys2Proof.Machine
end

