-- ==== Sys2Proof/Laws/State.lean ====
section
/-! SUPPORT. One lemma per field of each named update of State and Datapath, so that no proof unfolds a record update. -/

namespace Sys2Proof.Machine

open Sys2Proof


@[simp] theorem State.raiseCmdError_dp (s : State) (c : ErrCode) : (s.raiseCmdError c).dp = s.dp := rfl
@[simp] theorem State.raiseCmdError_ie (s : State) (c : ErrCode) : (s.raiseCmdError c).ie = s.ie := rfl
@[simp] theorem State.raiseCmdError_phase (s : State) (c : ErrCode) : (s.raiseCmdError c).phase = s.phase := rfl
@[simp] theorem State.raiseCmdError_done (s : State) (c : ErrCode) : (s.raiseCmdError c).done = s.done := rfl
@[simp] theorem State.raiseCmdError_err (s : State) (c : ErrCode) : (s.raiseCmdError c).err = true := rfl
@[simp] theorem State.raiseCmdError_errcode (s : State) (c : ErrCode) :
    (s.raiseCmdError c).errcode = if s.err then s.errcode else c := rfl
@[simp] theorem State.raiseCmdError_rdata (s : State) (c : ErrCode) : (s.raiseCmdError c).rdata = s.rdata := rfl
@[simp] theorem State.raiseCmdError_host (s : State) (c : ErrCode) : (s.raiseCmdError c).host = s.host := rfl
@[simp] theorem State.raiseCmdError_pace (s : State) (c : ErrCode) : (s.raiseCmdError c).pace = s.pace := rfl
@[simp] theorem State.raiseCmdError_held (s : State) (c : ErrCode) : (s.raiseCmdError c).held = s.held := rfl
@[simp] theorem State.raiseCmdError_draws (s : State) (c : ErrCode) : (s.raiseCmdError c).draws = s.draws := rfl

@[simp] theorem State.acknowledge_dp (s : State) (v : Word) : (s.acknowledge v).dp = s.dp := rfl
@[simp] theorem State.acknowledge_ie (s : State) (v : Word) : (s.acknowledge v).ie = s.ie := rfl
@[simp] theorem State.acknowledge_phase (s : State) (v : Word) : (s.acknowledge v).phase = s.phase := rfl
@[simp] theorem State.acknowledge_done (s : State) (v : Word) :
    (s.acknowledge v).done = if bit v 1 then false else s.done := rfl
@[simp] theorem State.acknowledge_err (s : State) (v : Word) :
    (s.acknowledge v).err = if bit v 2 then false else s.err := rfl
@[simp] theorem State.acknowledge_errcode (s : State) (v : Word) :
    (s.acknowledge v).errcode = if bit v 2 then .none else s.errcode := rfl
@[simp] theorem State.acknowledge_rdata (s : State) (v : Word) : (s.acknowledge v).rdata = s.rdata := rfl
@[simp] theorem State.acknowledge_host (s : State) (v : Word) : (s.acknowledge v).host = s.host := rfl
@[simp] theorem State.acknowledge_pace (s : State) (v : Word) : (s.acknowledge v).pace = s.pace := rfl
@[simp] theorem State.acknowledge_held (s : State) (v : Word) : (s.acknowledge v).held = s.held := rfl
@[simp] theorem State.acknowledge_draws (s : State) (v : Word) : (s.acknowledge v).draws = s.draws := rfl

@[simp] theorem State.writeCtrl_dp (s : State) (v : Word) : (s.writeCtrl v).dp = s.dp := rfl
@[simp] theorem State.writeCtrl_ie (s : State) (v : Word) : (s.writeCtrl v).ie = bit v 0 := rfl
@[simp] theorem State.writeCtrl_phase (s : State) (v : Word) : (s.writeCtrl v).phase = s.phase := rfl
@[simp] theorem State.writeCtrl_done (s : State) (v : Word) : (s.writeCtrl v).done = s.done := rfl
@[simp] theorem State.writeCtrl_err (s : State) (v : Word) : (s.writeCtrl v).err = s.err := rfl
@[simp] theorem State.writeCtrl_errcode (s : State) (v : Word) : (s.writeCtrl v).errcode = s.errcode := rfl
@[simp] theorem State.writeCtrl_rdata (s : State) (v : Word) : (s.writeCtrl v).rdata = s.rdata := rfl
@[simp] theorem State.writeCtrl_host (s : State) (v : Word) : (s.writeCtrl v).host = s.host := rfl
@[simp] theorem State.writeCtrl_pace (s : State) (v : Word) : (s.writeCtrl v).pace = s.pace := rfl
@[simp] theorem State.writeCtrl_held (s : State) (v : Word) : (s.writeCtrl v).held = s.held := rfl
@[simp] theorem State.writeCtrl_draws (s : State) (v : Word) : (s.writeCtrl v).draws = s.draws := rfl

@[simp] theorem State.beginCommand_dp (s : State) : (s.beginCommand).dp = s.dp := rfl
@[simp] theorem State.beginCommand_ie (s : State) : (s.beginCommand).ie = s.ie := rfl
@[simp] theorem State.beginCommand_phase (s : State) : (s.beginCommand).phase = s.phase := rfl
@[simp] theorem State.beginCommand_done (s : State) : (s.beginCommand).done = false := rfl
@[simp] theorem State.beginCommand_err (s : State) : (s.beginCommand).err = s.err := rfl
@[simp] theorem State.beginCommand_errcode (s : State) : (s.beginCommand).errcode = s.errcode := rfl
@[simp] theorem State.beginCommand_rdata (s : State) : (s.beginCommand).rdata = s.rdata := rfl
@[simp] theorem State.beginCommand_host (s : State) : (s.beginCommand).host = s.host := rfl
@[simp] theorem State.beginCommand_pace (s : State) : (s.beginCommand).pace = s.pace := rfl
@[simp] theorem State.beginCommand_held (s : State) : (s.beginCommand).held = s.held := rfl
@[simp] theorem State.beginCommand_draws (s : State) : (s.beginCommand).draws = s.draws := rfl

@[simp] theorem State.complete_dp (s : State) (d : Datapath) : (s.complete d).dp = d := rfl
@[simp] theorem State.complete_ie (s : State) (d : Datapath) : (s.complete d).ie = s.ie := rfl
@[simp] theorem State.complete_phase (s : State) (d : Datapath) : (s.complete d).phase = s.phase := rfl
@[simp] theorem State.complete_done (s : State) (d : Datapath) : (s.complete d).done = true := rfl
@[simp] theorem State.complete_err (s : State) (d : Datapath) : (s.complete d).err = s.err := rfl
@[simp] theorem State.complete_errcode (s : State) (d : Datapath) : (s.complete d).errcode = s.errcode := rfl
@[simp] theorem State.complete_rdata (s : State) (d : Datapath) : (s.complete d).rdata = s.rdata := rfl
@[simp] theorem State.complete_host (s : State) (d : Datapath) : (s.complete d).host = s.host := rfl
@[simp] theorem State.complete_pace (s : State) (d : Datapath) : (s.complete d).pace = s.pace := rfl
@[simp] theorem State.complete_held (s : State) (d : Datapath) : (s.complete d).held = s.held := rfl
@[simp] theorem State.complete_draws (s : State) (d : Datapath) : (s.complete d).draws = s.draws := rfl

@[simp] theorem State.startEngine_dp (s : State) : (s.startEngine).dp = s.dp := rfl
@[simp] theorem State.startEngine_ie (s : State) : (s.startEngine).ie = s.ie := rfl
@[simp] theorem State.startEngine_phase (s : State) : (s.startEngine).phase = .load := rfl
@[simp] theorem State.startEngine_done (s : State) : (s.startEngine).done = s.done := rfl
@[simp] theorem State.startEngine_err (s : State) : (s.startEngine).err = s.err := rfl
@[simp] theorem State.startEngine_errcode (s : State) : (s.startEngine).errcode = s.errcode := rfl
@[simp] theorem State.startEngine_rdata (s : State) : (s.startEngine).rdata = s.rdata := rfl
@[simp] theorem State.startEngine_host (s : State) : (s.startEngine).host = s.host := rfl
@[simp] theorem State.startEngine_pace (s : State) : (s.startEngine).pace = s.pace := rfl
@[simp] theorem State.startEngine_held (s : State) : (s.startEngine).held = s.held := rfl
@[simp] theorem State.startEngine_draws (s : State) : (s.startEngine).draws = s.draws := rfl

@[simp] theorem State.drawn_dp (s : State) : (s.drawn).dp = s.dp := rfl
@[simp] theorem State.drawn_ie (s : State) : (s.drawn).ie = s.ie := rfl
@[simp] theorem State.drawn_phase (s : State) : (s.drawn).phase = s.phase := rfl
@[simp] theorem State.drawn_done (s : State) : (s.drawn).done = s.done := rfl
@[simp] theorem State.drawn_err (s : State) : (s.drawn).err = s.err := rfl
@[simp] theorem State.drawn_errcode (s : State) : (s.drawn).errcode = s.errcode := rfl
@[simp] theorem State.drawn_rdata (s : State) : (s.drawn).rdata = s.rdata := rfl
@[simp] theorem State.drawn_host (s : State) : (s.drawn).host = s.host := rfl
@[simp] theorem State.drawn_pace (s : State) : (s.drawn).pace = s.pace := rfl
@[simp] theorem State.drawn_held (s : State) : (s.drawn).held = s.held := rfl
@[simp] theorem State.drawn_draws (s : State) : (s.drawn).draws = s.draws + 1 := rfl

@[simp] theorem State.resetBlock_dp (s : State) : (s.resetBlock).dp = Datapath.zero := rfl
@[simp] theorem State.resetBlock_ie (s : State) : (s.resetBlock).ie = false := rfl
@[simp] theorem State.resetBlock_phase (s : State) : (s.resetBlock).phase = .idle := rfl
@[simp] theorem State.resetBlock_done (s : State) : (s.resetBlock).done = false := rfl
@[simp] theorem State.resetBlock_err (s : State) : (s.resetBlock).err = false := rfl
@[simp] theorem State.resetBlock_errcode (s : State) : (s.resetBlock).errcode = .none := rfl
@[simp] theorem State.resetBlock_rdata (s : State) : (s.resetBlock).rdata = 0 := rfl
@[simp] theorem State.resetBlock_host (s : State) : (s.resetBlock).host = s.host := rfl
@[simp] theorem State.resetBlock_pace (s : State) : (s.resetBlock).pace = s.pace := rfl
@[simp] theorem State.resetBlock_held (s : State) : (s.resetBlock).held = 0 := rfl
@[simp] theorem State.resetBlock_draws (s : State) : (s.resetBlock).draws = s.draws := rfl

@[simp] theorem State.fetch_dp (s : State) : (s.fetch).dp = s.dp := rfl
@[simp] theorem State.fetch_ie (s : State) : (s.fetch).ie = s.ie := rfl
@[simp] theorem State.fetch_phase (s : State) : (s.fetch).phase = s.phase := rfl
@[simp] theorem State.fetch_done (s : State) : (s.fetch).done = s.done := rfl
@[simp] theorem State.fetch_err (s : State) : (s.fetch).err = s.err := rfl
@[simp] theorem State.fetch_errcode (s : State) : (s.fetch).errcode = s.errcode := rfl
@[simp] theorem State.fetch_rdata (s : State) : (s.fetch).rdata = 0 := rfl
@[simp] theorem State.fetch_host (s : State) : (s.fetch).host = s.hostAfter := rfl
@[simp] theorem State.fetch_pace (s : State) : (s.fetch).pace = s.pace.tail := rfl
@[simp] theorem State.fetch_held (s : State) : (s.fetch).held = s.held := rfl
@[simp] theorem State.fetch_draws (s : State) : (s.fetch).draws = s.draws := rfl

@[simp] theorem State.release_dp (p : Params) (s : State) : (s.release p).dp = s.dp := by
  unfold State.release; split <;> rfl
@[simp] theorem State.release_ie (p : Params) (s : State) : (s.release p).ie = s.ie := by
  unfold State.release; split <;> rfl
@[simp] theorem State.release_phase (p : Params) (s : State) : (s.release p).phase = s.phase := by
  unfold State.release; split <;> rfl
@[simp] theorem State.release_done (p : Params) (s : State) : (s.release p).done = s.done := by
  unfold State.release; split <;> rfl
@[simp] theorem State.release_err (p : Params) (s : State) : (s.release p).err = s.err := by
  unfold State.release; split <;> rfl
@[simp] theorem State.release_errcode (p : Params) (s : State) : (s.release p).errcode = s.errcode := by
  unfold State.release; split <;> rfl
@[simp] theorem State.release_rdata (p : Params) (s : State) : (s.release p).rdata = s.rdata := by
  unfold State.release; split <;> rfl
@[simp] theorem State.release_host (p : Params) (s : State) : (s.release p).host = s.host := by
  unfold State.release; split <;> rfl
@[simp] theorem State.release_pace (p : Params) (s : State) : (s.release p).pace = s.pace := by
  unfold State.release; split <;> rfl
@[simp] theorem State.release_held (p : Params) (s : State) :
    (s.release p).held = if decodeSteps < p.decodeCycles then 0 else s.held := by
  unfold State.release; split <;> rfl
@[simp] theorem State.release_draws (p : Params) (s : State) : (s.release p).draws = s.draws := by
  unfold State.release; split <;> rfl

@[simp] theorem Datapath.load_in0 (d : Datapath) : (d.load).in0 = d.in0 := rfl
@[simp] theorem Datapath.load_in1 (d : Datapath) : (d.load).in1 = d.in1 := rfl
@[simp] theorem Datapath.load_in2 (d : Datapath) : (d.load).in2 = d.in2 := rfl
@[simp] theorem Datapath.load_result (d : Datapath) : (d.load).result = d.result := rfl
@[simp] theorem Datapath.load_pt0 (d : Datapath) : (d.load).pt0 = d.pt0 := rfl
@[simp] theorem Datapath.load_pt1 (d : Datapath) : (d.load).pt1 = d.pt1 := rfl
@[simp] theorem Datapath.load_l (d : Datapath) :
    (d.load).l = ((d.cipher 2).extractLsb' 0 4 ++ d.cipher 1 ++ d.cipher 0 : BitVec 20).setWidth 24 := rfl
@[simp] theorem Datapath.load_r (d : Datapath) : (d.load).r = ((d.rWide >>> 4).setWidth 20).setWidth 24 := rfl
@[simp] theorem Datapath.load_tlo (d : Datapath) : (d.load).tlo = d.timeLow := rfl
@[simp] theorem Datapath.load_thi (d : Datapath) : (d.load).thi = d.key 4 := rfl
@[simp] theorem Datapath.load_round (d : Datapath) : (d.load).round = 16 := rfl
@[simp] theorem Datapath.load_expr (d : Datapath) : (d.load).expr = d.expr := rfl
@[simp] theorem Datapath.load_rkey (d : Datapath) : (d.load).rkey = d.rkey := rfl
@[simp] theorem Datapath.load_mix (d : Datapath) : (d.load).mix = d.mix := rfl
@[simp] theorem Datapath.load_grp (d : Datapath) : (d.load).grp = d.grp := rfl
@[simp] theorem Datapath.load_sbox (d : Datapath) : (d.load).sbox = d.sbox := rfl
@[simp] theorem Datapath.load_pbox (d : Datapath) : (d.load).pbox = d.pbox := rfl

@[simp] theorem Datapath.rotateBy_in0 (d : Datapath) (p : Params) (n : Nat) : (d.rotateBy p n).in0 = d.in0 := rfl
@[simp] theorem Datapath.rotateBy_in1 (d : Datapath) (p : Params) (n : Nat) : (d.rotateBy p n).in1 = d.in1 := rfl
@[simp] theorem Datapath.rotateBy_in2 (d : Datapath) (p : Params) (n : Nat) : (d.rotateBy p n).in2 = d.in2 := rfl
@[simp] theorem Datapath.rotateBy_result (d : Datapath) (p : Params) (n : Nat) :
    (d.rotateBy p n).result = d.result := rfl
@[simp] theorem Datapath.rotateBy_pt0 (d : Datapath) (p : Params) (n : Nat) : (d.rotateBy p n).pt0 = d.pt0 := rfl
@[simp] theorem Datapath.rotateBy_pt1 (d : Datapath) (p : Params) (n : Nat) : (d.rotateBy p n).pt1 = d.pt1 := rfl
@[simp] theorem Datapath.rotateBy_l (d : Datapath) (p : Params) (n : Nat) : (d.rotateBy p n).l = d.l := rfl
@[simp] theorem Datapath.rotateBy_r (d : Datapath) (p : Params) (n : Nat) : (d.rotateBy p n).r = d.r := rfl
@[simp] theorem Datapath.rotateBy_tlo (d : Datapath) (p : Params) (n : Nat) :
    (d.rotateBy p n).tlo = (rotSteps p.rotBit20Mode n (d.tlo, d.thi)).1 := rfl
@[simp] theorem Datapath.rotateBy_thi (d : Datapath) (p : Params) (n : Nat) :
    (d.rotateBy p n).thi = (rotSteps p.rotBit20Mode n (d.tlo, d.thi)).2 := rfl
@[simp] theorem Datapath.rotateBy_round (d : Datapath) (p : Params) (n : Nat) :
    (d.rotateBy p n).round = d.round := rfl
@[simp] theorem Datapath.rotateBy_expr (d : Datapath) (p : Params) (n : Nat) : (d.rotateBy p n).expr = d.expr := rfl
@[simp] theorem Datapath.rotateBy_rkey (d : Datapath) (p : Params) (n : Nat) : (d.rotateBy p n).rkey = d.rkey := rfl
@[simp] theorem Datapath.rotateBy_mix (d : Datapath) (p : Params) (n : Nat) : (d.rotateBy p n).mix = d.mix := rfl
@[simp] theorem Datapath.rotateBy_grp (d : Datapath) (p : Params) (n : Nat) : (d.rotateBy p n).grp = d.grp := rfl
@[simp] theorem Datapath.rotateBy_sbox (d : Datapath) (p : Params) (n : Nat) : (d.rotateBy p n).sbox = d.sbox := rfl
@[simp] theorem Datapath.rotateBy_pbox (d : Datapath) (p : Params) (n : Nat) : (d.rotateBy p n).pbox = d.pbox := rfl

@[simp] theorem Datapath.rot_in0 (d : Datapath) (p : Params) : (d.rot p).in0 = d.in0 := rfl
@[simp] theorem Datapath.rot_in1 (d : Datapath) (p : Params) : (d.rot p).in1 = d.in1 := rfl
@[simp] theorem Datapath.rot_in2 (d : Datapath) (p : Params) : (d.rot p).in2 = d.in2 := rfl
@[simp] theorem Datapath.rot_result (d : Datapath) (p : Params) : (d.rot p).result = d.result := rfl
@[simp] theorem Datapath.rot_pt0 (d : Datapath) (p : Params) : (d.rot p).pt0 = d.pt0 := rfl
@[simp] theorem Datapath.rot_pt1 (d : Datapath) (p : Params) : (d.rot p).pt1 = d.pt1 := rfl
@[simp] theorem Datapath.rot_l (d : Datapath) (p : Params) : (d.rot p).l = d.l := rfl
@[simp] theorem Datapath.rot_r (d : Datapath) (p : Params) : (d.rot p).r = d.r := rfl
@[simp] theorem Datapath.rot_tlo (d : Datapath) (p : Params) :
    (d.rot p).tlo = (rotSteps p.rotBit20Mode (rotAmount p d.round) (d.tlo, d.thi)).1 := rfl
@[simp] theorem Datapath.rot_thi (d : Datapath) (p : Params) :
    (d.rot p).thi = (rotSteps p.rotBit20Mode (rotAmount p d.round) (d.tlo, d.thi)).2 := rfl
@[simp] theorem Datapath.rot_round (d : Datapath) (p : Params) : (d.rot p).round = d.round := rfl
@[simp] theorem Datapath.rot_expr (d : Datapath) (p : Params) : (d.rot p).expr = d.expr := rfl
@[simp] theorem Datapath.rot_rkey (d : Datapath) (p : Params) : (d.rot p).rkey = d.rkey := rfl
@[simp] theorem Datapath.rot_mix (d : Datapath) (p : Params) : (d.rot p).mix = d.mix := rfl
@[simp] theorem Datapath.rot_grp (d : Datapath) (p : Params) : (d.rot p).grp = d.grp := rfl
@[simp] theorem Datapath.rot_sbox (d : Datapath) (p : Params) : (d.rot p).sbox = d.sbox := rfl
@[simp] theorem Datapath.rot_pbox (d : Datapath) (p : Params) : (d.rot p).pbox = d.pbox := rfl

@[simp] theorem Datapath.expand_in0 (d : Datapath) (p : Params) : (d.expand p).in0 = d.in0 := rfl
@[simp] theorem Datapath.expand_in1 (d : Datapath) (p : Params) : (d.expand p).in1 = d.in1 := rfl
@[simp] theorem Datapath.expand_in2 (d : Datapath) (p : Params) : (d.expand p).in2 = d.in2 := rfl
@[simp] theorem Datapath.expand_result (d : Datapath) (p : Params) : (d.expand p).result = d.result := rfl
@[simp] theorem Datapath.expand_pt0 (d : Datapath) (p : Params) : (d.expand p).pt0 = d.pt0 := rfl
@[simp] theorem Datapath.expand_pt1 (d : Datapath) (p : Params) : (d.expand p).pt1 = d.pt1 := rfl
@[simp] theorem Datapath.expand_l (d : Datapath) (p : Params) : (d.expand p).l = d.l := rfl
@[simp] theorem Datapath.expand_r (d : Datapath) (p : Params) : (d.expand p).r = d.r := rfl
@[simp] theorem Datapath.expand_tlo (d : Datapath) (p : Params) : (d.expand p).tlo = d.tlo := rfl
@[simp] theorem Datapath.expand_thi (d : Datapath) (p : Params) : (d.expand p).thi = d.thi := rfl
@[simp] theorem Datapath.expand_round (d : Datapath) (p : Params) : (d.expand p).round = d.round := rfl
@[simp] theorem Datapath.expand_expr (d : Datapath) (p : Params) : (d.expand p).expr = expandR p.tables d.r := rfl
@[simp] theorem Datapath.expand_rkey (d : Datapath) (p : Params) : (d.expand p).rkey = d.rkey := rfl
@[simp] theorem Datapath.expand_mix (d : Datapath) (p : Params) : (d.expand p).mix = d.mix := rfl
@[simp] theorem Datapath.expand_grp (d : Datapath) (p : Params) : (d.expand p).grp = d.grp := rfl
@[simp] theorem Datapath.expand_sbox (d : Datapath) (p : Params) : (d.expand p).sbox = d.sbox := rfl
@[simp] theorem Datapath.expand_pbox (d : Datapath) (p : Params) : (d.expand p).pbox = d.pbox := rfl

@[simp] theorem Datapath.compress_in0 (d : Datapath) (p : Params) : (d.compress p).in0 = d.in0 := rfl
@[simp] theorem Datapath.compress_in1 (d : Datapath) (p : Params) : (d.compress p).in1 = d.in1 := rfl
@[simp] theorem Datapath.compress_in2 (d : Datapath) (p : Params) : (d.compress p).in2 = d.in2 := rfl
@[simp] theorem Datapath.compress_result (d : Datapath) (p : Params) : (d.compress p).result = d.result := rfl
@[simp] theorem Datapath.compress_pt0 (d : Datapath) (p : Params) : (d.compress p).pt0 = d.pt0 := rfl
@[simp] theorem Datapath.compress_pt1 (d : Datapath) (p : Params) : (d.compress p).pt1 = d.pt1 := rfl
@[simp] theorem Datapath.compress_l (d : Datapath) (p : Params) : (d.compress p).l = d.l := rfl
@[simp] theorem Datapath.compress_r (d : Datapath) (p : Params) : (d.compress p).r = d.r := rfl
@[simp] theorem Datapath.compress_tlo (d : Datapath) (p : Params) : (d.compress p).tlo = d.tlo := rfl
@[simp] theorem Datapath.compress_thi (d : Datapath) (p : Params) : (d.compress p).thi = d.thi := rfl
@[simp] theorem Datapath.compress_round (d : Datapath) (p : Params) : (d.compress p).round = d.round := rfl
@[simp] theorem Datapath.compress_expr (d : Datapath) (p : Params) : (d.compress p).expr = d.expr := rfl
@[simp] theorem Datapath.compress_rkey (d : Datapath) (p : Params) :
    (d.compress p).rkey = compressKey p.tables d.tlo d.thi := rfl
@[simp] theorem Datapath.compress_mix (d : Datapath) (p : Params) : (d.compress p).mix = d.mix := rfl
@[simp] theorem Datapath.compress_grp (d : Datapath) (p : Params) : (d.compress p).grp = d.grp := rfl
@[simp] theorem Datapath.compress_sbox (d : Datapath) (p : Params) : (d.compress p).sbox = d.sbox := rfl
@[simp] theorem Datapath.compress_pbox (d : Datapath) (p : Params) : (d.compress p).pbox = d.pbox := rfl

@[simp] theorem Datapath.mixKey_in0 (d : Datapath) : (d.mixKey).in0 = d.in0 := rfl
@[simp] theorem Datapath.mixKey_in1 (d : Datapath) : (d.mixKey).in1 = d.in1 := rfl
@[simp] theorem Datapath.mixKey_in2 (d : Datapath) : (d.mixKey).in2 = d.in2 := rfl
@[simp] theorem Datapath.mixKey_result (d : Datapath) : (d.mixKey).result = d.result := rfl
@[simp] theorem Datapath.mixKey_pt0 (d : Datapath) : (d.mixKey).pt0 = d.pt0 := rfl
@[simp] theorem Datapath.mixKey_pt1 (d : Datapath) : (d.mixKey).pt1 = d.pt1 := rfl
@[simp] theorem Datapath.mixKey_l (d : Datapath) : (d.mixKey).l = d.l := rfl
@[simp] theorem Datapath.mixKey_r (d : Datapath) : (d.mixKey).r = d.r := rfl
@[simp] theorem Datapath.mixKey_tlo (d : Datapath) : (d.mixKey).tlo = d.tlo := rfl
@[simp] theorem Datapath.mixKey_thi (d : Datapath) : (d.mixKey).thi = d.thi := rfl
@[simp] theorem Datapath.mixKey_round (d : Datapath) : (d.mixKey).round = d.round := rfl
@[simp] theorem Datapath.mixKey_expr (d : Datapath) : (d.mixKey).expr = d.expr &&& ~~~0x00F00000#30 := rfl
@[simp] theorem Datapath.mixKey_rkey (d : Datapath) : (d.mixKey).rkey = d.rkey := rfl
@[simp] theorem Datapath.mixKey_mix (d : Datapath) : (d.mixKey).mix = d.expr ^^^ d.rkey := rfl
@[simp] theorem Datapath.mixKey_grp (d : Datapath) : (d.mixKey).grp = d.grp := rfl
@[simp] theorem Datapath.mixKey_sbox (d : Datapath) : (d.mixKey).sbox = d.sbox := rfl
@[simp] theorem Datapath.mixKey_pbox (d : Datapath) : (d.mixKey).pbox = d.pbox := rfl

@[simp] theorem Datapath.substitute_in0 (d : Datapath) (p : Params) : (d.substitute p).in0 = d.in0 := rfl
@[simp] theorem Datapath.substitute_in1 (d : Datapath) (p : Params) : (d.substitute p).in1 = d.in1 := rfl
@[simp] theorem Datapath.substitute_in2 (d : Datapath) (p : Params) : (d.substitute p).in2 = d.in2 := rfl
@[simp] theorem Datapath.substitute_result (d : Datapath) (p : Params) : (d.substitute p).result = d.result := rfl
@[simp] theorem Datapath.substitute_pt0 (d : Datapath) (p : Params) : (d.substitute p).pt0 = d.pt0 := rfl
@[simp] theorem Datapath.substitute_pt1 (d : Datapath) (p : Params) : (d.substitute p).pt1 = d.pt1 := rfl
@[simp] theorem Datapath.substitute_l (d : Datapath) (p : Params) : (d.substitute p).l = d.l := rfl
@[simp] theorem Datapath.substitute_r (d : Datapath) (p : Params) : (d.substitute p).r = d.r := rfl
@[simp] theorem Datapath.substitute_tlo (d : Datapath) (p : Params) : (d.substitute p).tlo = d.tlo := rfl
@[simp] theorem Datapath.substitute_thi (d : Datapath) (p : Params) : (d.substitute p).thi = d.thi := rfl
@[simp] theorem Datapath.substitute_round (d : Datapath) (p : Params) : (d.substitute p).round = d.round := rfl
@[simp] theorem Datapath.substitute_expr (d : Datapath) (p : Params) : (d.substitute p).expr = d.expr := rfl
@[simp] theorem Datapath.substitute_rkey (d : Datapath) (p : Params) : (d.substitute p).rkey = d.rkey := rfl
@[simp] theorem Datapath.substitute_mix (d : Datapath) (p : Params) : (d.substitute p).mix = d.mix := rfl
@[simp] theorem Datapath.substitute_grp (d : Datapath) (p : Params) : (d.substitute p).grp = regroup d.mix := rfl
@[simp] theorem Datapath.substitute_sbox (d : Datapath) (p : Params) :
    (d.substitute p).sbox = substituteGroups p (regroup d.mix) := rfl
@[simp] theorem Datapath.substitute_pbox (d : Datapath) (p : Params) : (d.substitute p).pbox = d.pbox := rfl

@[simp] theorem Datapath.permute_in0 (d : Datapath) (p : Params) : (d.permute p).in0 = d.in0 := rfl
@[simp] theorem Datapath.permute_in1 (d : Datapath) (p : Params) : (d.permute p).in1 = d.in1 := rfl
@[simp] theorem Datapath.permute_in2 (d : Datapath) (p : Params) : (d.permute p).in2 = d.in2 := rfl
@[simp] theorem Datapath.permute_result (d : Datapath) (p : Params) : (d.permute p).result = d.result := rfl
@[simp] theorem Datapath.permute_pt0 (d : Datapath) (p : Params) : (d.permute p).pt0 = d.pt0 := rfl
@[simp] theorem Datapath.permute_pt1 (d : Datapath) (p : Params) : (d.permute p).pt1 = d.pt1 := rfl
@[simp] theorem Datapath.permute_l (d : Datapath) (p : Params) : (d.permute p).l = d.l := rfl
@[simp] theorem Datapath.permute_r (d : Datapath) (p : Params) : (d.permute p).r = d.r := rfl
@[simp] theorem Datapath.permute_tlo (d : Datapath) (p : Params) : (d.permute p).tlo = d.tlo := rfl
@[simp] theorem Datapath.permute_thi (d : Datapath) (p : Params) : (d.permute p).thi = d.thi := rfl
@[simp] theorem Datapath.permute_round (d : Datapath) (p : Params) : (d.permute p).round = d.round := rfl
@[simp] theorem Datapath.permute_expr (d : Datapath) (p : Params) : (d.permute p).expr = d.expr := rfl
@[simp] theorem Datapath.permute_rkey (d : Datapath) (p : Params) : (d.permute p).rkey = d.rkey := rfl
@[simp] theorem Datapath.permute_mix (d : Datapath) (p : Params) : (d.permute p).mix = d.mix := rfl
@[simp] theorem Datapath.permute_grp (d : Datapath) (p : Params) : (d.permute p).grp = d.grp := rfl
@[simp] theorem Datapath.permute_sbox (d : Datapath) (p : Params) : (d.permute p).sbox = d.sbox := rfl
@[simp] theorem Datapath.permute_pbox (d : Datapath) (p : Params) :
    (d.permute p).pbox = permuteBits p.tables d.sbox := rfl

@[simp] theorem Datapath.swap_in0 (d : Datapath) : (d.swap).in0 = d.in0 := rfl
@[simp] theorem Datapath.swap_in1 (d : Datapath) : (d.swap).in1 = d.in1 := rfl
@[simp] theorem Datapath.swap_in2 (d : Datapath) : (d.swap).in2 = d.in2 := rfl
@[simp] theorem Datapath.swap_result (d : Datapath) : (d.swap).result = d.result := rfl
@[simp] theorem Datapath.swap_pt0 (d : Datapath) : (d.swap).pt0 = d.pt0 := rfl
@[simp] theorem Datapath.swap_pt1 (d : Datapath) : (d.swap).pt1 = d.pt1 := rfl
@[simp] theorem Datapath.swap_l (d : Datapath) : (d.swap).l = d.r := rfl
@[simp] theorem Datapath.swap_r (d : Datapath) : (d.swap).r = d.pbox ^^^ d.l := rfl
@[simp] theorem Datapath.swap_tlo (d : Datapath) : (d.swap).tlo = d.tlo := rfl
@[simp] theorem Datapath.swap_thi (d : Datapath) : (d.swap).thi = d.thi := rfl
@[simp] theorem Datapath.swap_round (d : Datapath) : (d.swap).round = d.round - 1 := rfl
@[simp] theorem Datapath.swap_expr (d : Datapath) : (d.swap).expr = d.expr := rfl
@[simp] theorem Datapath.swap_rkey (d : Datapath) : (d.swap).rkey = d.rkey := rfl
@[simp] theorem Datapath.swap_mix (d : Datapath) : (d.swap).mix = d.mix := rfl
@[simp] theorem Datapath.swap_grp (d : Datapath) : (d.swap).grp = d.grp := rfl
@[simp] theorem Datapath.swap_sbox (d : Datapath) : (d.swap).sbox = d.sbox := rfl
@[simp] theorem Datapath.swap_pbox (d : Datapath) : (d.swap).pbox = d.pbox := rfl

@[simp] theorem Datapath.finish_in0 (d : Datapath) : (d.finish).in0 = d.in0 := rfl
@[simp] theorem Datapath.finish_in1 (d : Datapath) : (d.finish).in1 = d.in1 := rfl
@[simp] theorem Datapath.finish_in2 (d : Datapath) : (d.finish).in2 = d.in2 := rfl
@[simp] theorem Datapath.finish_result (d : Datapath) : (d.finish).result = d.result := rfl
@[simp] theorem Datapath.finish_pt0 (d : Datapath) : (d.finish).pt0 = (finishHalves d.l d.r).extractLsb' 0 32 := rfl
@[simp] theorem Datapath.finish_pt1 (d : Datapath) : (d.finish).pt1 = (finishHalves d.l d.r).extractLsb' 32 8 := rfl
@[simp] theorem Datapath.finish_l (d : Datapath) : (d.finish).l = d.l := rfl
@[simp] theorem Datapath.finish_r (d : Datapath) : (d.finish).r = d.r := rfl
@[simp] theorem Datapath.finish_tlo (d : Datapath) : (d.finish).tlo = d.tlo := rfl
@[simp] theorem Datapath.finish_thi (d : Datapath) : (d.finish).thi = d.thi := rfl
@[simp] theorem Datapath.finish_round (d : Datapath) : (d.finish).round = d.round := rfl
@[simp] theorem Datapath.finish_expr (d : Datapath) : (d.finish).expr = d.expr := rfl
@[simp] theorem Datapath.finish_rkey (d : Datapath) : (d.finish).rkey = d.rkey := rfl
@[simp] theorem Datapath.finish_mix (d : Datapath) : (d.finish).mix = d.mix := rfl
@[simp] theorem Datapath.finish_grp (d : Datapath) : (d.finish).grp = d.grp := rfl
@[simp] theorem Datapath.finish_sbox (d : Datapath) : (d.finish).sbox = d.sbox := rfl
@[simp] theorem Datapath.finish_pbox (d : Datapath) : (d.finish).pbox = d.pbox := rfl

@[simp] theorem Datapath.check_in0 (d : Datapath) (p : Params) : (d.check p).in0 = d.in0 := rfl
@[simp] theorem Datapath.check_in1 (d : Datapath) (p : Params) : (d.check p).in1 = d.in1 := rfl
@[simp] theorem Datapath.check_in2 (d : Datapath) (p : Params) : (d.check p).in2 = d.in2 := rfl
@[simp] theorem Datapath.check_result (d : Datapath) (p : Params) :
    (d.check p).result = checkPlaintext p d.plaintext := rfl
@[simp] theorem Datapath.check_pt0 (d : Datapath) (p : Params) : (d.check p).pt0 = d.pt0 := rfl
@[simp] theorem Datapath.check_pt1 (d : Datapath) (p : Params) : (d.check p).pt1 = d.pt1 := rfl
@[simp] theorem Datapath.check_l (d : Datapath) (p : Params) : (d.check p).l = d.l := rfl
@[simp] theorem Datapath.check_r (d : Datapath) (p : Params) : (d.check p).r = d.r := rfl
@[simp] theorem Datapath.check_tlo (d : Datapath) (p : Params) : (d.check p).tlo = d.tlo := rfl
@[simp] theorem Datapath.check_thi (d : Datapath) (p : Params) : (d.check p).thi = d.thi := rfl
@[simp] theorem Datapath.check_round (d : Datapath) (p : Params) : (d.check p).round = d.round := rfl
@[simp] theorem Datapath.check_expr (d : Datapath) (p : Params) : (d.check p).expr = d.expr := rfl
@[simp] theorem Datapath.check_rkey (d : Datapath) (p : Params) : (d.check p).rkey = d.rkey := rfl
@[simp] theorem Datapath.check_mix (d : Datapath) (p : Params) : (d.check p).mix = d.mix := rfl
@[simp] theorem Datapath.check_grp (d : Datapath) (p : Params) : (d.check p).grp = d.grp := rfl
@[simp] theorem Datapath.check_sbox (d : Datapath) (p : Params) : (d.check p).sbox = d.sbox := rfl
@[simp] theorem Datapath.check_pbox (d : Datapath) (p : Params) : (d.check p).pbox = d.pbox := rfl

/-- ROUND is the seven commands in order (R59). -/
theorem Datapath.oneRound_eq (p : Params) (d : Datapath) :
    d.oneRound p = ((((((d.rot p).expand p).compress p).mixKey).substitute p).permute p).swap := by
  rw [Datapath.oneRound]

@[simp] theorem Datapath.oneRound_in0 (d : Datapath) (p : Params) : (d.oneRound p).in0 = d.in0 := by
  simp [Datapath.oneRound_eq]
@[simp] theorem Datapath.oneRound_in1 (d : Datapath) (p : Params) : (d.oneRound p).in1 = d.in1 := by
  simp [Datapath.oneRound_eq]
@[simp] theorem Datapath.oneRound_in2 (d : Datapath) (p : Params) : (d.oneRound p).in2 = d.in2 := by
  simp [Datapath.oneRound_eq]
@[simp] theorem Datapath.oneRound_result (d : Datapath) (p : Params) : (d.oneRound p).result = d.result := by
  simp [Datapath.oneRound_eq]
@[simp] theorem Datapath.oneRound_pt0 (d : Datapath) (p : Params) : (d.oneRound p).pt0 = d.pt0 := by
  simp [Datapath.oneRound_eq]
@[simp] theorem Datapath.oneRound_pt1 (d : Datapath) (p : Params) : (d.oneRound p).pt1 = d.pt1 := by
  simp [Datapath.oneRound_eq]
@[simp] theorem Datapath.oneRound_l (d : Datapath) (p : Params) : (d.oneRound p).l = d.r := by
  simp [Datapath.oneRound_eq]
@[simp] theorem Datapath.oneRound_round (d : Datapath) (p : Params) : (d.oneRound p).round = d.round - 1 := by
  simp [Datapath.oneRound_eq]
@[simp] theorem Datapath.oneRound_tlo (d : Datapath) (p : Params) : (d.oneRound p).tlo = (d.rot p).tlo := by
  simp [Datapath.oneRound_eq]
@[simp] theorem Datapath.oneRound_thi (d : Datapath) (p : Params) : (d.oneRound p).thi = (d.rot p).thi := by
  simp [Datapath.oneRound_eq]

/-! The other registers of a round, each from the ones before it (R59). -/

theorem Datapath.oneRound_rkey (d : Datapath) (p : Params) :
    (d.oneRound p).rkey = compressKey p.tables (d.oneRound p).tlo (d.oneRound p).thi := by
  simp [Datapath.oneRound_eq]

theorem Datapath.oneRound_expr (d : Datapath) (p : Params) :
    (d.oneRound p).expr = expandR p.tables d.r &&& ~~~0x00F00000#30 := by
  simp [Datapath.oneRound_eq]

theorem Datapath.oneRound_mix (d : Datapath) (p : Params) :
    (d.oneRound p).mix = expandR p.tables d.r ^^^ (d.oneRound p).rkey := by
  simp [Datapath.oneRound_eq]

theorem Datapath.oneRound_grp (d : Datapath) (p : Params) :
    (d.oneRound p).grp = regroup (d.oneRound p).mix := by
  simp [Datapath.oneRound_eq]

theorem Datapath.oneRound_sbox (d : Datapath) (p : Params) :
    (d.oneRound p).sbox = substituteGroups p (d.oneRound p).grp := by
  simp [Datapath.oneRound_eq]

theorem Datapath.oneRound_pbox (d : Datapath) (p : Params) :
    (d.oneRound p).pbox = permuteBits p.tables (d.oneRound p).sbox := by
  simp [Datapath.oneRound_eq]

theorem Datapath.oneRound_r (d : Datapath) (p : Params) :
    (d.oneRound p).r = (d.oneRound p).pbox ^^^ d.l := by
  simp [Datapath.oneRound_eq]

@[simp] theorem State.busy_eq_false_iff (s : State) : s.busy = false ↔ s.phase = .idle := by simp [State.busy]

@[simp] theorem State.busy_eq_true_iff (s : State) : s.busy = true ↔ s.phase ≠ .idle := by simp [State.busy]

end Sys2Proof.Machine
end

