-- ==== Sys2Proof/Laws/Engine.lean ====
section
/-! SUPPORT. Everything an engine step can do (spec/44_control.md rule R70). -/

namespace Sys2Proof.Machine

open Sys2Proof

theorem engineStepWith_cases {p : Params} {s t : State} (h : engineStepWith p s = .next t) :
    (s.phase = .idle ∧ t = s) ∨
    (s.phase = .load ∧ t = { s with dp := s.dp.load, phase := .rounds }) ∨
    (s.phase = .rounds ∧ s.dp.round ≠ 0 ∧
      t = { s with dp := s.dp.oneRound p, phase := phaseAfterRound (s.dp.oneRound p) }) ∨
    (s.phase = .finish ∧ t = { s with dp := s.dp.finish, phase := .check }) ∨
    (s.phase = .check ∧ t = { s with dp := s.dp.check p, phase := .idle, done := true }) := by
  unfold engineStepWith at h
  split at h
  case h_3 hp =>
    split at h
    · cases h
    · rename_i hr
      cases h
      exact .inr (.inr (.inl ⟨hp, hr, rfl⟩))
  all_goals
    rename_i hp
    cases h
    simp [hp]

/-- An engine step changes the datapath, PHASE and DONE alone. -/
theorem engineStepWith_frame {p : Params} {s t : State} (h : engineStepWith p s = .next t) :
    t = { s with dp := t.dp, phase := t.phase, done := t.done } := by
  obtain ⟨-, rfl⟩ | ⟨-, rfl⟩ | ⟨-, -, rfl⟩ | ⟨-, rfl⟩ | ⟨-, rfl⟩ := engineStepWith_cases h <;> rfl

/-- n + 1 engine steps, the first one taken apart. -/
theorem engineStepsWith_succ {p : Params} {n : Nat} {s t : State} (h : engineStepWith p s = .next t) :
    engineStepsWith p (n + 1) s = engineStepsWith p n t := by
  simp [engineStepsWith, h]

/-- Engine steps add up. -/
theorem engineStepsWith_add {p : Params} {m n : Nat} {s t : State} (h : engineStepsWith p m s = .next t) :
    engineStepsWith p (m + n) s = engineStepsWith p n t := by
  induction m generalizing s with
  | zero =>
    cases h
    rw [Nat.zero_add]
  | succ m ih =>
    rw [Nat.succ_add]
    cases hs : engineStepWith p s with
    | next u =>
      rw [engineStepsWith_succ hs] at h ⊢
      exact ih h
    | fault f => simp [engineStepsWith, hs] at h
    | refused q => simp [engineStepsWith, hs] at h

@[simp] theorem engineStepsWith_one (p : Params) (s : State) : engineStepsWith p 1 s = engineStepWith p s := by
  rw [engineStepsWith]
  cases engineStepWith p s <;> rfl

/-- Everything the engine does in a cycle in which it moves: it holds its first step back, or it takes its steps. -/
theorem engineCycle_cases {p : Params} {s t : State} (h : engineCycle p s = .next t) :
    (s.phase = .load ∧ decodeSteps + s.held < p.decodeCycles ∧ t = { s with held := s.held + 1 }) ∨
    ((s.phase = .load → p.decodeCycles ≤ decodeSteps + s.held) ∧
      engineStepsWith p (stepsPerCycle p s.phase) (s.release p) = .next t) := by
  unfold engineCycle at h
  split at h
  case isTrue hh =>
    simp only [State.holds, Bool.and_eq_true, beq_iff_eq, decide_eq_true_eq] at hh
    cases h
    exact .inl ⟨hh.1, hh.2, rfl⟩
  case isFalse hh =>
    refine .inr ⟨fun hp => ?_, h⟩
    simpa [State.holds, hp] using hh

/-- With DECODE_CYCLES of 19 or more a cycle carries at most one engine step (R81). -/
theorem stepsPerCycle_of_le {p : Params} (h : decodeSteps ≤ p.decodeCycles) (phase : Phase) :
    stepsPerCycle p phase = 1 := by
  cases phase <;> simp [stepsPerCycle, Nat.min_eq_right h]

/-- With DECODE_CYCLES of 19 every cycle in which the engine moves is one engine step (R88), and no cycle is counted. -/
theorem engineCycle_of_eq {p : Params} (h : p.decodeCycles = decodeSteps) (s : State) :
    engineCycle p s = engineStepWith p s := by
  have hh : s.holds p = false := by simp [State.holds, h]
  have hr : s.release p = s := by simp [State.release, h]
  simp [engineCycle, hh, hr, stepsPerCycle_of_le h.ge]

@[simp] theorem engineCycle_params (s : State) : engineCycle Config.params s = engineStep s :=
  engineCycle_of_eq rfl s

/-- The engine step stops in one case alone (Log 9). -/
theorem engineStepWith_stops_iff (p : Params) (s : State) :
    (∃ t, engineStepWith p s = .next t) ↔ ¬(s.phase = .rounds ∧ s.dp.round = 0) := by
  unfold engineStepWith
  cases hp : s.phase <;> simp
  by_cases hr : s.dp.round = 0#5 <;> simp [hr]

end Sys2Proof.Machine
end

