-- ==== Sys2Proof/Laws/Ops.lean ====
section
/-! SUPPORT. Everything the acceptance operations can do, each in one equation (spec/30_encoding.md rule R45): they always
answer a next state. -/

namespace Sys2Proof.Machine

open Sys2Proof

theorem State.command_eq (s : State) (rule : Datapath → Datapath) :
    s.command rule =
      .next (if s.busy then s.raiseCmdError .busy else { s with dp := rule s.dp, done := true }) := by
  cases h : s.busy <;> simp [State.command, h, State.beginCommand, State.complete]

theorem State.roundCommand_eq (s : State) (rule : Datapath → Datapath) :
    s.roundCommand rule =
      .next (if s.busy then s.raiseCmdError .busy
        else if s.dp.round = 0 then s.raiseCmdError .badRound
        else { s with dp := rule s.dp, done := true }) := by
  unfold State.roundCommand
  split
  · rfl
  · split <;> rfl

theorem State.decodeCommand_eq (s : State) :
    s.decodeCommand =
      .next (if s.busy then s.raiseCmdError .busy else { s with done := false, phase := .load }) := by
  cases h : s.busy <;> simp [State.decodeCommand, h, State.beginCommand, State.startEngine]

theorem State.illegalCommand_eq (s : State) :
    s.illegalCommand = .next (if s.busy then s.raiseCmdError .busy else s.raiseCmdError .illegalCmd) := by
  cases h : s.busy <;> simp [State.illegalCommand, h]

/-- No command stops, whatever the parameters: each arm answers a next state. -/
theorem execWith_answers_next (p : Params) (i : Instr) (s : State) : ∃ t, execWith p i s = .next t := by
  cases i with
  | rot => exact ⟨_, s.roundCommand_eq _⟩
  | swap => exact ⟨_, s.roundCommand_eq _⟩
  | round => exact ⟨_, s.roundCommand_eq _⟩
  | decode => exact ⟨_, s.decodeCommand_eq⟩
  | reserved _ => exact ⟨_, s.illegalCommand_eq⟩
  | nop => exact ⟨_, s.command_eq fun d => d⟩
  | clear => exact ⟨_, s.command_eq fun _ => Datapath.zero⟩
  | _ => exact ⟨_, s.command_eq _⟩

/-- The commands of this hardware are those of an MRD with its parameters. -/
@[simp] theorem execWith_params (i : Instr) (s : State) : execWith Config.params i s = exec i s := by cases i <;> rfl

/-- No command of this hardware stops. -/
theorem exec_answers_next (i : Instr) (s : State) : ∃ t, exec i s = .next t := by
  simpa using execWith_answers_next Config.params i s

end Sys2Proof.Machine
end

