-- ==== Sys2Proof/Laws/Bus.lean ====
section
/-! SUPPORT. What a bus read and a bus write can do (spec/20_memory.md rules R30 to R33, R36). -/

namespace Sys2Proof.Machine

open Sys2Proof

@[simp] theorem regAt_offset (reg : Reg) : regAt reg.offset = some reg := by cases reg <;> rfl

/-- A bus read changes nothing but the count of drawn values. -/
theorem busRead_state (addr : BitVec 8) (s : State) : (busRead addr s).2 = s ∨ (busRead addr s).2 = s.drawn := by
  unfold busRead
  cases regAt addr with
  | none => simp
  | some reg =>
    cases reg <;> simp only [readReg] <;> first
      | exact .inl trivial
      | (split <;> simp)

/-- A bus read while BUSY = 0 changes nothing at all. -/
theorem busRead_state_of_idle (addr : BitVec 8) {s : State} (h : s.phase = .idle) : (busRead addr s).2 = s := by
  have hb : s.busy = false := by simp [h]
  unfold busRead
  cases regAt addr with
  | none => rfl
  | some reg => cases reg <;> simp [readReg, hb]

/-- A word presented to CMD is the command it decodes to, or an illegal word. -/
theorem presentCommand_cases {par : Params} {w : Word} {s t : State} (h : presentCommand par w s = .next t) :
    (∃ i, decodeWord w = .ok i ∧ execWith par i s = .next t) ∨
    ((∃ e, decodeWord w = .error e) ∧ s.illegalCommand = .next t) := by
  unfold presentCommand at h
  cases hd : decodeWord w with
  | ok i => exact .inl ⟨i, rfl, by simpa [hd] using h⟩
  | error e => exact .inr ⟨⟨e, rfl⟩, by simpa [hd] using h⟩

/-- Everything a bus write can do. -/
theorem busWriteWith_cases {par : Params} {addr : BitVec 8} {v : Word} {s t : State}
    (h : busWriteWith par addr v s = .next t) :
    t = s ∨
    (regAt addr = some .ctrl ∧ t = s.writeCtrl v) ∨
    (regAt addr = some .status ∧ t = s.acknowledge v) ∨
    (regAt addr = some .cmd ∧ presentCommand par v s = .next t) ∨
    (s.busy = true ∧ t = s.raiseCmdError .busy) ∨
    (s.busy = false ∧ ∃ reg, regAt addr = some reg ∧ t = { s with dp := s.dp.store reg v }) := by
  unfold busWriteWith at h
  cases hr : regAt addr with
  | none =>
    simp only [hr] at h
    cases h
    exact .inl rfl
  | some reg =>
    simp only [hr] at h
    cases hb : s.busy <;> cases reg <;> simp only [writeReg, hb] at h <;> first
      | (cases h; simp)
      | simp [h]

/-- A bus write always answers a next state. -/
theorem busWriteWith_answers_next (par : Params) (addr : BitVec 8) (v : Word) (s : State) :
    ∃ t, busWriteWith par addr v s = .next t := by
  unfold busWriteWith
  cases regAt addr with
  | none => exact ⟨_, rfl⟩
  | some reg =>
    cases reg <;> first
      | exact ⟨_, rfl⟩
      | skip
    simp only [writeReg, presentCommand]
    cases decodeWord v with
    | ok i => exact execWith_answers_next par i s
    | error e => exact ⟨_, s.illegalCommand_eq⟩

/-- The access of a cycle always answers a next state. -/
theorem busAccess_answers_next (par : Params) (p : PortPins) (s : State) : ∃ t, busAccess par p s = .next t := by
  unfold busAccess
  split
  · split
    · exact busWriteWith_answers_next _ _ _ _
    · exact ⟨_, rfl⟩
  · exact ⟨_, rfl⟩

/-- Everything a cycle outside reset can do: its access, and after it the engine's move if the cycle has one. -/
theorem stepWith_of_running (par : Params) {s : State} (h : s.nextPins.rstN = true) :
    ∃ t, busAccess par s.nextPins s.fetch = .next t ∧
      stepWith par s = if s.engineReady then engineCycle par t else .next t := by
  obtain ⟨t, ht⟩ := busAccess_answers_next par s.nextPins s.fetch
  exact ⟨t, ht, by simp [stepWith, clockCycle, h, ht]⟩

/-- Everything a cycle in reset can do. -/
theorem stepWith_of_reset (par : Params) {s : State} (h : s.nextPins.rstN = false) :
    stepWith par s = .next s.fetch.resetBlock := by
  simp [stepWith, clockCycle, h]

/-- The step of this hardware outside reset: at most one engine step (R81). -/
theorem step_of_running {s : State} (h : s.nextPins.rstN = true) :
    ∃ t, busAccess Config.params s.nextPins s.fetch = .next t ∧
      step s = if s.engineReady then engineStep t else .next t := by
  simpa [step] using stepWith_of_running Config.params h

/-- A write of a word to CMD on this hardware. -/
theorem busWrite_cmd (w : Word) (s : State) :
    busWrite 0x0C#8 w s = match decodeWord w with
      | .ok i => exec i s
      | .error _ => s.illegalCommand := by
  show presentCommand Config.params w s = _
  unfold presentCommand
  cases decodeWord w <;> simp

end Sys2Proof.Machine
end

