-- ==== Sys2Proof/Laws/PerInstr.lean ====
section
/-! SUPPORT. The families of statements made per command, one lemma per constructor of Instr. -/

namespace Sys2Proof.Laws.EncodingFitsTable

open Sys2Proof

/-- The word of a well-formed command lies in the command's row of spec/opcode_table.json. -/
def Statement (i : Instr) : Prop := i.wellFormed = true → i.row.matches (encode i) = true

theorem nop : Statement .nop := fun _ => rfl
theorem load : Statement .load := fun _ => rfl
theorem rot : Statement .rot := fun _ => rfl
theorem roti (cnt : BitVec 2) : Statement (.roti cnt) := by
  intro _
  revert cnt
  decide
theorem expand : Statement .expand := fun _ => rfl
theorem compress : Statement .compress := fun _ => rfl
theorem mix : Statement .mix := fun _ => rfl
theorem sbox : Statement .sbox := fun _ => rfl
theorem pbox : Statement .pbox := fun _ => rfl
theorem swap : Statement .swap := fun _ => rfl
theorem round : Statement .round := fun _ => rfl
theorem finish : Statement .finish := fun _ => rfl
theorem check : Statement .check := fun _ => rfl
theorem decode : Statement .decode := fun _ => rfl
theorem clear : Statement .clear := fun _ => rfl
theorem reserved (w : Word) : Statement (.reserved w) := by
  intro h
  have hw : w.extractLsb' 0 4 = 0xF#4 := by simpa [Instr.wellFormed] using h
  have hbit : ∀ k, k < 4 → w.getLsbD k = true := by
    intro k hk
    have at_k := congrArg (fun v => v.getLsbD k) hw
    simp only [BitVec.getLsbD_extractLsb', hk, decide_true, Bool.true_and, Nat.zero_add] at at_k
    rw [at_k]
    interval_cases k <;> rfl
  simp only [Instr.row, OpcodeRow.matches, encode, beq_iff_eq]
  apply BitVec.eq_of_getLsbD_eq
  intro k _
  by_cases hk : k < 4
  · rw [BitVec.getLsbD_and, hbit k hk]
    interval_cases k <;> rfl
  · have hz : (0xF#32).getLsbD k = false := by
      rw [BitVec.getLsbD_ofNat]
      have : Nat.testBit 15 k = false := Nat.testBit_lt_two_pow (by
        have : 2 ^ 4 ≤ 2 ^ k := Nat.pow_le_pow_right (by decide) (by omega)
        omega)
      simp [this]
    simp [hz]

end Sys2Proof.Laws.EncodingFitsTable
end

