-- ==== Sys2Proof/Tests/Slice0.lean ====
section
/-! SUPPORT. Tests: the expected values are the spec's own (95_test_vectors.md, 30_encoding.md), each named by its section;
and, for every statement with hypotheses, a state and operands that meet them. -/

namespace Sys2Proof.Tests

open Sys2Proof Sys2Proof.Machine

/-! ### WellFormed and Decode -/

/-- The one ill-formed term: a `reserved` whose OPC is not 0xF. -/
theorem test_ill_formed_reserved : (Instr.reserved 0x00000001#32).wellFormed = false := by decide
theorem test_well_formed_reserved : (Instr.reserved 0x0000001F#32).wellFormed = true := by decide

/-! The words of 30_encoding.md R41 and R42, bit by bit: Z (26 bits), CNT (2 bits), OPC (4 bits). -/

theorem test_decode_nop : decodeWord (0#26 ++ 0b00#2 ++ 0b0000#4) = .ok .nop := by rfl
theorem test_decode_load : decodeWord (0#26 ++ 0b00#2 ++ 0b0001#4) = .ok .load := by rfl
theorem test_decode_rot : decodeWord (0#26 ++ 0b00#2 ++ 0b0010#4) = .ok .rot := by rfl
theorem test_decode_roti_1 : decodeWord (0#26 ++ 0b01#2 ++ 0b0011#4) = .ok (.roti 1) := by rfl
theorem test_decode_roti_2 : decodeWord (0#26 ++ 0b10#2 ++ 0b0011#4) = .ok (.roti 2) := by rfl
theorem test_decode_expand : decodeWord (0#26 ++ 0b00#2 ++ 0b0100#4) = .ok .expand := by rfl
theorem test_decode_compress : decodeWord (0#26 ++ 0b00#2 ++ 0b0101#4) = .ok .compress := by rfl
theorem test_decode_mix : decodeWord (0#26 ++ 0b00#2 ++ 0b0110#4) = .ok .mix := by rfl
theorem test_decode_sbox : decodeWord (0#26 ++ 0b00#2 ++ 0b0111#4) = .ok .sbox := by rfl
theorem test_decode_pbox : decodeWord (0#26 ++ 0b00#2 ++ 0b1000#4) = .ok .pbox := by rfl
theorem test_decode_swap : decodeWord (0#26 ++ 0b00#2 ++ 0b1001#4) = .ok .swap := by rfl
theorem test_decode_round : decodeWord (0#26 ++ 0b00#2 ++ 0b1010#4) = .ok .round := by rfl
theorem test_decode_finish : decodeWord (0#26 ++ 0b00#2 ++ 0b1011#4) = .ok .finish := by rfl
theorem test_decode_check : decodeWord (0#26 ++ 0b00#2 ++ 0b1100#4) = .ok .check := by rfl
theorem test_decode_decode : decodeWord (0#26 ++ 0b00#2 ++ 0b1101#4) = .ok .decode := by rfl
theorem test_decode_clear : decodeWord (0#26 ++ 0b00#2 ++ 0b1110#4) = .ok .clear := by rfl
theorem test_decode_reserved : decodeWord (0#26 ++ 0b01#2 ++ 0b1111#4) = .ok (.reserved 0x1F) := by rfl

/-! 95_test_vectors.md §3.0, the illegal words. -/

theorem test_decode_refuses_cnt_of_nop : decodeWord 0x00000010#32 = .error .cntNotZero := by rfl
theorem test_decode_refuses_cnt_of_decode : decodeWord 0x0000001D#32 = .error .cntNotZero := by rfl
theorem test_decode_refuses_z_of_roti : decodeWord 0x00000043#32 = .error .zNotZero := by rfl
theorem test_decode_refuses_bit_31 : decodeWord 0x80000001#32 = .error .zNotZero := by rfl
theorem test_table_word_of_roti : decodeTableWord 32 0x33 = some (.roti 3) := by decide
theorem test_table_word_of_illegal : decodeTableWord 32 0x103 = none := by decide

/-! ### The datapath functions, under the test tables TT of 95_test_vectors.md §2.1 -/

/-- TT. -/
def ttTables : Tables where
  exp := Vector.ofFn fun i => 1#32 <<< (2 * i.val)
  cmpLo := Vector.ofFn fun i => 1#32 <<< i.val
  cmpHi := Vector.ofFn fun i => if 22 ≤ i.val then 1#8 <<< (i.val - 22) else 0#8
  perm := Vector.ofFn fun i => 1#32 <<< ((7 * i.val) % 20)
  sb1 := Vector.ofFn fun x => BitVec.ofNat 8 (37 * x.val + 11)
  sb2 := Vector.ofFn fun x => BitVec.ofNat 8 (73 * x.val + 29)
  sb3 := Vector.ofFn fun x => BitVec.ofNat 8 (151 * x.val + 200)

/-- This hardware's parameters with TT. -/
def tt : Params := { Config.params with tables := ttTables }

/-- §3.2, the only row in which COPY and OR differ. -/
theorem test_rotStep_copy : rotStep .copy (0x00100000#32, 0x00#8) = (0x00000000#32, 0x80#8) := by decide
theorem test_rotStep_or : rotStep .or (0x00100000#32, 0x00#8) = (0x00080000#32, 0x80#8) := by decide
/-- §3.2, three steps. -/
theorem test_rotSteps_three : rotSteps .copy 3 (0x26030005#32, 0x19#8) = (0x24CA6000#32, 0x03#8) := by decide
/-- §1.3. -/
theorem test_rotAmounts : [16#5, 15#5, 8#5, 7#5, 3#5, 1#5].map (rotAmount Config.params) = [2, 1, 2, 2, 2, 1] := by
  decide
/-- §4.2, rows 1 and 5. -/
theorem test_expand : expandR ttTables 0x05C1F7#24 = 0x39F5C1F7#30 := by decide
theorem test_expand_ignores_the_top : expandR ttTables 0xFFFFFF#24 = 0x3FFFFFFF#30 := by decide
/-- §4.3, rows 1 and 7. -/
theorem test_compress : compressKey ttTables 0x4984C001#32 0x06#8 = 0x0984C001#30 := by decide +kernel
theorem test_compress_hi : compressKey ttTables 0x80000000#32 0x80#8 = 0x20000000#30 := by decide +kernel
/-- §4.5, rows 1 and 4. -/
theorem test_regroup : regroup 0x307101F6#30 = 0x310017F6#30 := by rfl
theorem test_regroup_low_pool : regroup 0x000FFFFF#30 = 0x0F3CF3CF#30 := by rfl
/-- §4.5, both field orders. -/
theorem test_substitute_descending : substituteGroups tt 0x310017F6#30 = 0xF2060#20 := by decide
theorem test_substitute_ascending :
    substituteGroups { tt with sboxFieldOrder := .ascending } 0x310017F6#30 = 0x1F869#20 := by decide
/-- §4.6, rows 1 and 6. -/
theorem test_permute : permuteBits ttTables 0xF2060#20 = 0xFEC900#24 := by decide
theorem test_permute_bit_19 : permuteBits ttTables 0x80000#20 = 0xF20000#24 := by decide
/-- §4.8, FINISH row 5. -/
theorem test_finish_ignores_the_top : finishHalves 0xF25013#24 0xFABCDE#24 = 0xABCDE25013#40 := by decide
/-- §4.8, CHECK rows 1, 6 and 8. -/
theorem test_check_success : checkPlaintext Config.params 0xABCDE25013#40 = 0x7ABCDE#24 := by decide
theorem test_check_masks_the_payload : checkPlaintext Config.params 0x000002501C#40 = 0x400000#24 := by decide
theorem test_check_failure : checkPlaintext Config.params 0x0000025000#40 = 0x200001#24 := by decide

/-! ### Commands and accesses on small states -/

/-- The state an outcome answers, if it answers one. -/
def nextOf (o : Result) : Option State :=
  match o with
  | .next t => some t
  | .fault _ => none
  | .refused _ => none

/-- The reset state with these datapath registers. -/
def withDp (d : Datapath) : State := { State.reset with dp := d }

/-- The reset state with ROUND = n. -/
def atRound (n : BitVec 5) : State := withDp { Datapath.zero with round := n }

/-- A state in which a DECODE runs, in the given phase, with ROUND = n. -/
def running (ph : Phase) (n : BitVec 5) : State := { atRound n with phase := ph }

/-- The scenario bytes of §1.1 in IN0 to IN2. -/
def scenario : Datapath := { Datapath.zero with in0 := 0x1F77F010#32, in1 := 0x0300055C#32, in2 := 0x1926#16 }

/-- The state with one access pending. -/
def pending (p : PortPins) (s : State) : State := { s with host := [.pins p] }

/-- §3.1, row 1. -/
theorem test_load : (nextOf (exec .load (withDp scenario))).map
    (fun t => (t.dp.l, t.dp.r, t.dp.tlo, t.dp.thi, t.dp.round, t.done)) =
      some (0x07F010#24, 0x05C1F7#24, 0x26030005#32, 0x19#8, 16#5, true) := by decide
/-- §3.2, ROT in round 16, and with ROUND = 0. -/
theorem test_rot : (nextOf (exec .rot (withDp scenario.load))).map (fun t => (t.dp.tlo, t.dp.thi)) =
    some (0x4984C001#32, 0x06#8) := by decide
theorem test_rot_bad_round : (nextOf (exec .rot State.reset)).map (fun t => t.statusWord) = some 0x24#32 := by decide
/-- §6.3 line 15. -/
theorem test_roti : (nextOf (exec (.roti 3) (withDp { Datapath.zero with tlo := 0x00080000#32, thi := 0x80#8 }))).map
    (fun t => (t.dp.tlo, t.dp.thi)) = some (0x00010000#32, 0x10#8) := by decide
/-- §4.4, rows 1 and 4. -/
theorem test_mix : (nextOf (exec .mix
    (withDp { Datapath.zero with expr := 0x39F5C1F7#30, rkey := 0x0984C001#30 }))).map
      (fun t => (t.dp.mix, t.dp.expr)) = some (0x307101F6#30, 0x3905C1F7#30) := by decide
theorem test_mix_keeps_the_nibble : (nextOf (exec .mix (withDp { Datapath.zero with expr := 0x00F00000#30 }))).map
    (fun t => (t.dp.mix, t.dp.expr)) = some (0x00F00000#30, 0x00000000#30) := by decide
/-- §4.7, row 4. -/
theorem test_swap : (nextOf (exec .swap
    (withDp { Datapath.zero with l := 0x123456#24, r := 0xABCDEF#24, pbox := 0xFFFFFF#24, round := 2#5 }))).map
      (fun t => (t.dp.l, t.dp.r, t.dp.round)) = some (0xABCDEF#24, 0xEDCBA9#24, 1#5) := by decide
/-- §4.8. -/
theorem test_finish : (nextOf (exec .finish (withDp { Datapath.zero with l := 0x0444A2#24, r := 0x075C4E#24 }))).map
    (fun t => (t.dp.pt0, t.dp.pt1)) = some (0xC4E444A2#32, 0x75#8) := by decide
theorem test_check : (nextOf (exec .check (withDp { Datapath.zero with pt0 := 0xCDE25013#32, pt1 := 0xAB#8 }))).map
    (fun t => (t.dp.result, t.statusWord)) = some (0x7ABCDE#24, 0x0A#32) := by decide
/-- §4.9: CLEAR does not clear ERR; a NOP sets DONE. -/
theorem test_clear : (nextOf (exec .clear { withDp scenario with err := true, errcode := .badRound })).map
    (fun t => (t.dp.in0, t.statusWord)) = some (0#32, 0x26#32) := by decide
theorem test_nop : (nextOf (exec .nop State.reset)).map (fun t => t.statusWord) = some 0x02#32 := by decide
/-- §6.1 cycle 4. -/
theorem test_decode : (nextOf (exec .decode State.reset)).map (fun t => (t.statusWord, t.phase)) =
    some (0x01#32, .load) := by decide
/-- §4.9: ILLEGAL_CMD leaves DONE. -/
theorem test_reserved : (nextOf (exec (.reserved 0x0F#32) { State.reset with done := true })).map
    (fun t => t.statusWord) = some 0x16#32 := by decide
/-- §6.3 line 12: bit 6 set. -/
theorem test_illegal_word : (nextOf (busWrite 0x0C#8 0x43#32 { State.reset with done := true })).map
    (fun t => t.statusWord) = some 0x16#32 := by decide
/-- §4.1, from ROUND = 5. -/
theorem test_round_write : [0x10#32, 0x11#32, 0x20#32, 0xFFFFFFFF#32].map
    (fun v => (nextOf (busWrite 0x38#8 v (atRound 5))).map (fun t => t.dp.round)) =
      [some 16#5, some 5#5, some 0#5, some 5#5] := by decide
/-- §4.9: the acknowledges. -/
theorem test_status_write : [0x4#32, 0x2#32, 0xFFFFFFF9#32].map (fun v =>
    (nextOf (busWrite 0x08#8 v { State.reset with done := true, err := true, errcode := .badRound })).map
      (fun t => t.statusWord)) = [some 0x02#32, some 0x24#32, some 0x26#32] := by decide
/-- §6.1 cycle 5: a write while BUSY is dropped, the interrupt rises, and the engine's LOAD follows. -/
theorem test_busy_write : (nextOf (step (pending (writePins 0x10#8 0#32)
    { running .load 0 with dp := scenario, ie := true }))).map
      (fun t => (t.statusWord, t.irq, t.dp.in0, t.dp.l, t.phase)) =
        some (0x35#32, true, 0x1F77F010#32, 0x07F010#24, .rounds) := by decide
/-- R81: a write of 1 to STATUS bit 1 meets the last engine step, and DONE ends 1. -/
theorem test_last_step : (nextOf (step (pending (writePins 0x08#8 0x2#32) (running .check 0)))).map
    (fun t => (t.done, t.phase)) = some (true, .idle) := by decide
/-- §4.7, ROUND of round 16 under TT, from the LOAD state of the scenario. -/
theorem test_round : (fun d : Datapath => (d.l, d.r, d.round, d.grp, d.sbox, d.expr))
    (scenario.load.oneRound tt) =
      (0x05C1F7#24, 0xF93910#24, 15#5, 0x310017F6#30, 0xF2060#20, 0x3905C1F7#30) := by decide +kernel
/-- §6.1 cycles 6 to 23: WAIT stays while the engine runs. -/
theorem test_wait_stays : (nextOf (step { running .rounds 3 with host := [.wait] })).map
    (fun t => t.host) = some [.wait] := by decide
theorem test_wait_ends : (nextOf (step { State.reset with host := [.wait] })).map (fun t => t.host) = some [] := by
  decide
/-- Log 9. -/
theorem test_rounds_at_zero : nextOf (step (running .rounds 0)) = none := by decide
/-- R37: a write to CMD is the command. -/
theorem test_step_runs_the_command : (nextOf (step ((withDp scenario).withFetchWord 32 1))).map
    (fun t => (t.dp.tlo, t.done)) = some (0x26030005#32, true) := by decide
/-- R5, R88: DECODE_CYCLES = 1 and 2: the cycle after the write ends the DECODE, or leaves it at its CHECK. -/
theorem test_decode_in_one_cycle :
    (nextOf (stepWith { tt with decodeCycles := 1 } (running .load 0))).map (fun t => (t.phase, t.done)) =
      some (.idle, true) := by decide +kernel
theorem test_decode_in_two_cycles :
    (nextOf (stepWith { tt with decodeCycles := 2 } (running .load 0))).map (fun t => (t.phase, t.done)) =
      some (.check, false) := by decide +kernel
/-- R88: DECODE_CYCLES = 21 leaves two cycles without an engine step. -/
theorem test_decode_in_more_cycles : [0, 1, 2].map (fun n =>
    (nextOf (stepWith { tt with decodeCycles := 21 } { running .load 0 with held := n })).map (fun t => (t.phase, t.held))) =
      [some (.load, 1), some (.load, 2), some (.rounds, 0)] := by decide
/-- R86: a reset in the middle of such a DECODE leaves nothing of it. -/
theorem test_reset_forgets_held_cycles :
    nextOf (stepWith { tt with decodeCycles := 25 } (pending resetPins { running .load 0 with held := 2 })) =
      some State.reset := by decide
/-- §3.2 under OR: ROTI 1 as a command. -/
theorem test_roti_or : (nextOf (execWith { tt with rotBit20Mode := .or } (.roti 1)
    (withDp { Datapath.zero with tlo := 0x00100000#32 }))).map (fun t => (t.dp.tlo, t.dp.thi)) =
      some (0x00080000#32, 0x80#8) := by decide
/-- R85: a read in a reset cycle returns 0. -/
theorem test_reset_cycle : (nextOf (step (pending { readPins 0x00#8 with rstN := false } (running .rounds 7)))).map
    (fun t => (t.rdata, t.phase, t.dp.round)) = some (0#32, .idle, 0#5) := by decide
/-- R12, R30: ID. -/
theorem test_read_id : (nextOf (step (pending (readPins 0x03#8) State.reset))).map (fun t => t.rdata) =
    some 0x4D524401#32 := by decide
/-- R47: LOADIN of the short input of §3.1 row 8. -/
theorem test_loadin_pads : (Pseudo.loadIn [0x12, 0x34, 0x56]).lines =
    [.wr .in0 0x00563412#32, .wr .in1 0#32, .wr .in2 0#32] := by decide
theorem test_ill_formed_rounds : (Pseudo.rounds 17).wellFormed = false := by decide
theorem test_params_legal : Config.params.legal = true := by decide

/-! ### Witnesses: a state and operands that meet the hypotheses of each statement -/

theorem witness_DecodeOfEncodeIsTheCommand :
    (Instr.roti 3).wellFormed = true ∧ (Instr.reserved 0xFFFFFFFF#32).wellFormed = true := by decide

theorem witness_EncodeOfDecodeIsTheWord :
    decodeWord 0x33#32 = .ok (.roti 3) := by rfl

theorem witness_IllegalWordsRaiseIllegalCmd :
    State.reset.phase = .idle ∧ legal 0x0F#32 = false ∧ legal 0x10#32 = false ∧ legal 0x43#32 = false ∧
      (0x1F#32).extractLsb' 0 4 = 0xF#4 := by decide

/-- One state or word for each clause. -/
theorem witness_CommandChecksRunInOrder :
    (running .load 0).phase ≠ .idle ∧ State.reset.phase = .idle ∧ legal 0x10#32 = false ∧
      State.reset.dp.round = 0#5 ∧ legal 0x33#32 = true ∧ (0x33#32 : Word) ≠ 2#32 ∧
      (atRound 1).phase = .idle ∧ legal 2#32 = true ∧ (atRound 1).dp.round ≠ 0#5 := by decide

theorem witness_FirstErrorCodeIsKept :
    State.reset.err = false ∧ (State.reset.raiseCmdError .badRound).err = true := by decide

theorem witness_NopOnlySetsDone :
    State.reset.phase = .idle ∧ (running .load 0).phase ≠ .idle ∧ legal 3#32 = true := by decide

theorem witness_ClearZeroesTheDatapath :
    (withDp scenario).phase = .idle := by decide

theorem witness_LoadSplitsTheInputBuffer :
    (withDp scenario).phase = .idle := by decide

/-- ROUND = 0, a double round and a single one. -/
theorem witness_RotTurnsBothRings :
    (atRound 0).phase = .idle ∧ (atRound 0).dp.round = 0#5 ∧
      (atRound 16).phase = .idle ∧ (atRound 16).dp.round = 16#5 ∧
      (atRound 1).phase = .idle ∧ (atRound 1).dp.round ≠ 0#5 := by decide

theorem witness_RotiTurnsBothRingsByCnt :
    (atRound 0).phase = .idle := by decide

theorem witness_ExpandSelectsByMask :
    (withDp scenario.load).phase = .idle := by decide

theorem witness_CompressSelectsByMask :
    (withDp scenario.load).phase = .idle := by decide

theorem witness_MixXorsAndClearsTheNibble :
    (withDp scenario.load).phase = .idle := by decide

theorem witness_SboxLooksUpFiveFields :
    (withDp scenario.load).phase = .idle := by decide

theorem witness_PboxSelectsByMask :
    (withDp scenario.load).phase = .idle := by decide

theorem witness_FinishPacksTheHalves :
    (withDp scenario.load).phase = .idle := by decide

theorem witness_RegroupHasTheClosedForm :
    (4 : Nat) < 5 ∧ regroup 1#30 = regroup 1#30 := ⟨by decide, rfl⟩

theorem witness_SwapExchangesTheHalves :
    (atRound 0).phase = .idle ∧ (atRound 0).dp.round = 0#5 ∧
      (atRound 1).phase = .idle ∧ (atRound 1).dp.round ≠ 0#5 := by decide

theorem witness_RoundIsTheSevenCommands :
    (atRound 0).phase = .idle ∧ (atRound 0).dp.round = 0#5 ∧
      (atRound 1).phase = .idle ∧ (atRound 1).dp.round ≠ 0#5 := by decide

/-- A plaintext word for each outcome. -/
theorem witness_CheckValidatesTheChecksum :
    (withDp { Datapath.zero with pt0 := 0xCDE25013#32 }).phase = .idle ∧
      (0xCDE25013#32).extractLsb' 4 16 = 0x2501#16 ∧ (0x00025000#32).extractLsb' 4 16 ≠ 0x2501#16 := by decide

theorem witness_DecodeStartsTheEngine :
    (atRound 0).phase = .idle := by decide

theorem witness_ZeroTablesAreInert :
    ({ tt with tables := {
      exp := Vector.replicate 10 0, cmpLo := Vector.replicate 30 0, cmpHi := Vector.replicate 30 0,
      perm := Vector.replicate 20 0, sb1 := Vector.replicate 64 0, sb2 := Vector.replicate 64 0,
      sb3 := Vector.replicate 64 0 } } : Params).tables = {
      exp := Vector.replicate 10 0, cmpLo := Vector.replicate 30 0, cmpHi := Vector.replicate 30 0,
      perm := Vector.replicate 20 0, sb1 := Vector.replicate 64 0, sb2 := Vector.replicate 64 0,
      sb3 := Vector.replicate 64 0 } := rfl

theorem witness_EngineStepsPerformTheCommands :
    (running .load 0).phase = .load ∧ (running .rounds 1).phase = .rounds ∧ (running .rounds 1).dp.round ≠ 0#5 ∧
      (running .finish 0).phase = .finish ∧ (running .check 0).phase = .check := by decide

theorem witness_DecodeEqualsItsCommandSequence :
    (withDp scenario).phase = .idle := by decide

theorem witness_DecodeEndState :
    (running .load 0).phase = .load := by decide

theorem witness_DecodeDependsOnlyOnTheInput :
    (running .load 0).phase = .load ∧ (running .load 5).phase = .load ∧ running .load 0 ≠ running .load 5 ∧
      (running .load 0).dp.in0 = (running .load 5).dp.in0 ∧ (running .load 0).dp.in1 = (running .load 5).dp.in1 ∧
      (running .load 0).dp.in2 = (running .load 5).dp.in2 := by decide

/-- A cycle with an engine step and one without. -/
theorem witness_BusAccessesDoNotDisturbADecode :
    ∃ s t s' t' : State, (s.phase ≠ .idle ∧ s.nextPins.rstN = true ∧ step s = .next t ∧ s.engineReady = true) ∧
      (s'.phase ≠ .idle ∧ s'.nextPins.rstN = true ∧ step s' = .next t' ∧ s'.engineReady = false) :=
  ⟨pending (writePins 0x10#8 1#32) (running .load 0), _, { running .load 0 with pace := [false] }, _,
    ⟨by decide, by decide, rfl, by decide⟩, ⟨by decide, by decide, rfl, by decide⟩⟩

theorem witness_DecodeEndsAfterNineteenCycles :
    ∃ s : State, s.phase = .load ∧ s.pace = [] ∧ s.host ≠ [] ∧ ∀ p, HostItem.pins p ∈ s.host → p.rstN = true :=
  ⟨pending (writePins 0x0C#8 0xD#32) (running .load 0), by decide, by decide, by decide, by simp [pending, writePins]⟩

theorem witness_ReservedOffsetsAreInert :
    0x54 ≤ (0x54#8).toNat ∧ 0x54 ≤ (0xFF#8).toNat := by decide

theorem witness_LowAddressBitsAreIgnored :
    (0x10#8).extractLsb' 2 6 = (0x13#8).extractLsb' 2 6 := by decide

theorem witness_RegisterWritesReadBack :
    State.reset.phase = .idle ∧ Reg.pbox ∈ Reg.datapathRW ∧ Reg.pbox ≠ .round ∧ Reg.status ≠ .pbox := by decide

/-- The two clauses meet between 16 and 17. -/
theorem witness_RoundIsWriteAnyReadLegal :
    (atRound 5).phase = .idle ∧ (0x30#32).toNat % 32 ≤ 16 ∧ 16 < (0x11#32).toNat % 32 := by decide

theorem witness_IdleReadsAreExactAndPure :
    State.reset.phase = .idle ∧ regAt 0x53#8 = some .pbox := by decide

theorem witness_StatusWritesAcknowledge :
    bit (0x6#32) 1 = true ∧ bit (0x6#32) 2 = true ∧ bit (0x9#32) 1 = false ∧ bit (0x9#32) 2 = false := by decide

theorem witness_InterruptLineIsALevel :
    bit (0x6#32) 1 = true ∧ bit (0x6#32) 2 = true ∧ bit (0x6#32) 0 = false := by decide

theorem witness_BusyWritesAreDropped :
    (running .rounds 3).phase ≠ .idle ∧ Reg.pbox ∈ Reg.datapathRW := by decide

theorem witness_BusyReadsAreFreeOrExact :
    (running .check 0).phase ≠ .idle ∧ 0x1C ≤ (0x1C#8).toNat ∧ (0x53#8).toNat < 0x54 ∧ 0x54 ≤ (0x54#8).toNat := by decide

/-- Beside a command's word, a register write and an illegal word. -/
theorem witness_StepPerformsOtherWrites :
    (nextOf (step (pending (writePins 0x10#8 5#32) State.reset))).map (fun t => t.dp.in0) = some 5#32 ∧
      (nextOf (step (pending (writePins 0x0C#8 0x43#32) State.reset))).map (fun t => t.statusWord) = some 0x14#32 := by
  decide

theorem witness_DecodeTakesDecodeCycles :
    ({ Config.params with decodeCycles := 1 } : Params).legal = true ∧
      ({ Config.params with decodeCycles := 25 } : Params).legal = true ∧ State.reset.phase = .idle ∧
      State.reset.HeldLegal { Config.params with decodeCycles := 1 } ∧
      State.reset.pace = [] ∧ ∃ t, execWith { Config.params with decodeCycles := 1 } .decode State.reset = .next t :=
  ⟨by decide, by decide, by decide, .inl rfl, by decide, _, rfl⟩

theorem witness_ParametersHaveTheirMeaning :
    (atRound 16).phase = .idle ∧ (atRound 16).dp.round ≠ 0#5 ∧
      ({ tt with sboxFieldOrder := .ascending } : Params).sboxFieldOrder = .ascending ∧
      (0xCDE25013#32).extractLsb' 4 16 = tt.checkConst ∧ (0#32).extractLsb' 4 16 ≠ tt.checkConst := by decide

theorem witness_StepRunsTheDecodedCommand :
    ∃ (s s' : State) (p : PortPins) (i : Instr), s.host = [.pins p] ∧ s'.host = [.pins p] ∧ p.rstN = true ∧ p.sel = true ∧
      p.we = true ∧ p.addr.extractLsb' 2 6 = 3#6 ∧ decodeWord p.wdata = .ok i ∧ s.phase = .idle ∧ s'.phase ≠ .idle :=
  ⟨pending (writePins 0x0E#8 0x23#32) State.reset, pending (writePins 0x0E#8 0x23#32) (running .load 0), _, .roti 2,
    rfl, rfl, rfl, rfl, rfl, by decide, rfl, by decide, by decide⟩

/-- A read of STATUS in the cycle of the last step, and a cycle with no read. -/
theorem witness_AccessComesBeforeTheEngineStep :
    ∃ (s s' t t' : State) (p p' : PortPins), s.host = [.pins p] ∧ p.rstN = true ∧ step s = .next t ∧ p.sel = true ∧
      p.we = false ∧ p.addr.extractLsb' 2 6 = 2#6 ∧ s.phase = .check ∧ s.pace.headD true = true ∧
      s'.host = [.pins p'] ∧ p'.rstN = true ∧ step s' = .next t' ∧ p'.we = true :=
  ⟨pending (readPins 0x08#8) (running .check 0), pending (writePins 0x08#8 0x2#32) State.reset, _, _, _, _,
    rfl, rfl, rfl, rfl, rfl, by decide, rfl, rfl, rfl, rfl, rfl, rfl⟩

theorem witness_ResetCycleResetsEverything :
    ∃ (s : State) (p : PortPins), s.host = [.pins p] ∧ p.rstN = false ∧ s.phase ≠ .idle :=
  ⟨pending resetPins (running .rounds 7), resetPins, rfl, rfl, by decide⟩

/-- An idle block, where WAIT ends, and a busy one, where it stays. -/
theorem witness_WaitPollsUntilIdle :
    ∃ s t s' t' : State, s.host = [.wait] ∧ step s = .next t ∧ bit t.rdata 0 = false ∧
      s'.host = [.wait] ∧ step s' = .next t' ∧ t'.host = [.wait] :=
  ⟨{ State.reset with host := [.wait] }, _, { running .rounds 3 with host := [.wait] }, _,
    rfl, rfl, by decide, rfl, rfl, rfl⟩

/-- A legal state in which a DECODE starts its rounds; and the last held cycle of a design with DECODE_CYCLES = 25. -/
theorem witness_StepKeepsStatesLegal :
    (∃ s t : State, s.Legal ∧ s.phase = .load ∧ step s = .next t) ∧
    ∃ s t : State, s.HeldLegal { tt with decodeCycles := 25 } ∧ s.held = 5 ∧
      stepWith { tt with decodeCycles := 25 } s = .next t :=
  ⟨⟨running .load 5, _, ⟨by decide, by decide, by decide, by decide, by decide, .inl rfl⟩, rfl, rfl⟩,
    { running .load 0 with held := 5 }, _, .inr ⟨rfl, by decide⟩, rfl, rfl⟩

/-- A reset cycle in the middle of such a DECODE. -/
theorem witness_StepKeepsStatesLegal_reset :
    (pending resetPins { running .load 0 with held := 2 }).nextPins.rstN = false := by decide

/-- A legal state in the middle of a DECODE. -/
theorem witness_LegalStatesAlwaysStep :
    ∃ s : State, s.Legal ∧ s.phase = .rounds :=
  ⟨running .rounds 7, ⟨by decide, by decide, by decide, by decide, by decide, .inl rfl⟩, rfl⟩

/-- A state of the stop's side, and one whose step has no engine step. -/
theorem witness_OnlyAnEngineStepAtRoundZeroStops :
    ((running .rounds 0).nextPins.rstN = true ∧ (running .rounds 0).engineReady = true ∧
      (running .rounds 0).phase = .rounds ∧ (running .rounds 0).dp.round = 0#5) ∧
    ({ running .rounds 0 with pace := [false] } : State).engineReady = false := by decide

theorem witness_OnlyAcknowledgeOrResetClearsErr :
    ∃ s t : State, step s = .next t ∧ s.err = true ∧ t.err = false ∧ s.writesNext .status 0x4#32 :=
  ⟨pending (writePins 0x08#8 0x4#32) { State.reset with err := true, errcode := .busy }, _, rfl, rfl, rfl, rfl, rfl, rfl, rfl, rfl⟩

theorem witness_DoneIsClearedOnlyByItsRules :
    ∃ s t : State, step s = .next t ∧ s.done = true ∧ t.done = false ∧ s.writesNext .cmd 0xD#32 :=
  ⟨pending (writePins 0x0C#8 0xD#32) { State.reset with done := true }, _, rfl, rfl, rfl, rfl, rfl, rfl, rfl, rfl⟩

theorem witness_InputBufferChangesOnlyByItsRules :
    ∃ s t : State, step s = .next t ∧ (s.dp.in0, s.dp.in1, s.dp.in2) ≠ (t.dp.in0, t.dp.in1, t.dp.in2) :=
  ⟨pending (writePins 0x0C#8 0xE#32) (withDp scenario), _, rfl, by decide⟩

theorem witness_ResultChangesOnlyByItsRules :
    ∃ s t : State, step s = .next t ∧ t.dp.result ≠ s.dp.result :=
  ⟨pending (writePins 0x0C#8 0xC#32) State.reset, _, rfl, by decide⟩

end Sys2Proof.Tests
end

