-- ==== Sys2Proof/Proofs/RegisterAccess.lean ====
section
/-! The register port at a register's own offset, and the register map at ID (spec/10_state.md rules R10 and R12,
20_memory.md rules R30 to R33). -/

namespace Sys2Proof.Machine

open Sys2Proof

@[simp] theorem busRead_offset (reg : Reg) (s : State) : busRead reg.offset s = readReg reg s := by
  simp [busRead]

@[simp] theorem busWrite_offset (reg : Reg) (v : Word) (s : State) :
    busWrite reg.offset v s = writeReg Config.params reg v s := by
  simp [busWrite, busWriteWith]

/-- The CTRL word is IE in bit 0 and zeros above it (R13). -/
theorem State.ctrlWord_eq (s : State) : s.ctrlWord = if s.ie then 1#32 else 0#32 := by
  unfold State.ctrlWord
  cases s.ie <;> rfl

/-- ID is the first word of the register space (R10), whatever `addr[1:0]` (R32). -/
theorem regAt_eq_some_id_iff (addr : BitVec 8) : regAt addr = some .id ↔ addr.toNat < 4 := by
  have first_word : addr.toNat < 4 ↔ (addr >>> 2).toNat = 0 := by
    rw [BitVec.toNat_ushiftRight, Nat.shiftRight_eq_div_pow]
    omega
  rw [first_word]
  unfold regAt
  generalize (addr >>> 2).toNat = word
  constructor
  · split <;> simp
  · rintro rfl
    rfl

end Sys2Proof.Machine
end

