-- ==== Sys2Proof/Proofs/StateFamily.lean ====
section
/-! The obligations on the registers of spec/10_state.md: CTRL (R13) and the reset values (R27). -/

namespace Sys2Proof.Machine

open Sys2Proof

/-- Every register but ID reads 0 after reset (R12, R27). -/
theorem readReg_reset (reg : Reg) :
    (readReg reg State.reset).1 = if reg = .id then idWord else 0 := by
  cases reg <;> rfl

/-- Settles O42: the access at 0x04 is the access of CTRL, which is not among the registers BUSY guards. -/
theorem ctrlHoldsTheInterruptEnable : Obligations.CtrlHoldsTheInterruptEnable := by
  refine ⟨rfl, fun s v => ⟨busWrite_offset .ctrl v s, ?_⟩⟩
  calc busRead 0x04#8 s = (s.ctrlWord, s) := busRead_offset .ctrl s
    _ = (if s.ie then 1#32 else 0#32, s) := by rw [s.ctrlWord_eq]

/-- Settles O49: a reserved offset reads 0, a register its reset value, and only the first word is ID. -/
theorem resetValues : Obligations.ResetValues := by
  refine ⟨fun addr => ?_, rfl, rfl⟩
  rw [busRead]
  simp only [← regAt_eq_some_id_iff]
  cases regAt addr with
  | none => simp
  | some reg => simpa [idWord] using readReg_reset reg

end Sys2Proof.Machine
end

