-- ==== Sys2Proof/Proofs/MemoryFamily.lean ====
section
/-! The obligation on the reserved offsets of spec/20_memory.md (R33). -/

namespace Sys2Proof.Machine

open Sys2Proof

/-- The reserved offsets are exactly those past the last register, PBOX at word 20 (R30, R33). -/
theorem regAt_eq_none_iff (addr : BitVec 8) : regAt addr = none ↔ 0x54 ≤ addr.toNat := by
  have past_last_word : 0x54 ≤ addr.toNat ↔ 20 < (addr >>> 2).toNat := by
    rw [BitVec.toNat_ushiftRight, Nat.shiftRight_eq_div_pow]
    omega
  rw [past_last_word]
  unfold regAt
  generalize (addr >>> 2).toNat = word
  constructor
  · contrapose!
    intro named
    interval_cases word <;> simp
  · intro past
    obtain ⟨k, rfl⟩ := Nat.exists_eq_add_of_le' past
    rfl

theorem busRead_of_regAt_none {addr : BitVec 8} (h : regAt addr = none) (s : State) :
    busRead addr s = (0, s) := by
  simp [busRead, h]

theorem busWriteWith_of_regAt_none {addr : BitVec 8} (h : regAt addr = none) (par : Params) (v : Word) (s : State) :
    busWriteWith par addr v s = .next s := by
  simp [busWriteWith, h]

/-- Settles O34: neither access at an offset that names no register looks at BUSY. -/
theorem reservedOffsetsAreInert : Obligations.ReservedOffsetsAreInert := by
  intro s addr v reserved
  have no_register : regAt addr = none := (regAt_eq_none_iff addr).mpr reserved
  exact ⟨busRead_of_regAt_none no_register s, busWriteWith_of_regAt_none no_register Config.params v s⟩

end Sys2Proof.Machine
end

