-- ==== Sys2Proof/Proofs/CommandWords.lean ====
section
/-! The fields of a command word as arithmetic, and the legal words: by their fields, by value, and by what they decode to
(spec/30_encoding.md rules R40 and R43). -/

namespace Sys2Proof

@[simp] theorem opcField_toNat (w : Word) : (opcField w).toNat = w.toNat % 16 := by
  simp [opcField, BitVec.extractLsb'_toNat]

@[simp] theorem cntField_toNat (w : Word) : (cntField w).toNat = w.toNat / 16 % 4 := by
  simp [cntField, BitVec.extractLsb'_toNat, Nat.shiftRight_eq_div_pow]

@[simp] theorem zField_toNat (w : Word) : (zField w).toNat = w.toNat / 64 := by
  rw [zField, BitVec.extractLsb'_toNat, Nat.shiftRight_eq_div_pow]
  omega

/-- The must-be-zero bits 31:4 of a command without operand are Z and CNT (R40). -/
theorem upperBits_eq_zero_iff (w : Word) : w.extractLsb' 4 28 = 0#28 ↔ zField w = 0#26 ∧ cntField w = 0#2 := by
  simp only [BitVec.toNat_eq, BitVec.extractLsb'_toNat, Nat.shiftRight_eq_div_pow, zField_toNat, cntField_toNat,
    BitVec.reduceToNat]
  omega

/-- The two cases of the legality formula (R43). -/
theorem legal_iff_formula (w : Word) :
    legal w = true ↔ opcField w ≠ 0xF#4 ∧
      (opcField w = 3#4 ∧ w.extractLsb' 6 26 = 0#26 ∨ opcField w ≠ 3#4 ∧ w.extractLsb' 4 28 = 0#28) := by
  unfold legal
  by_cases roti : opcField w = 3#4 <;> simp [roti]

/-- Z is 0 in every legal word, and CNT too unless the opcode is ROTI's (R40, R43). -/
theorem legal_iff_fields (w : Word) :
    legal w = true ↔ opcField w ≠ 0xF#4 ∧ zField w = 0#26 ∧ (opcField w = 3#4 ∨ cntField w = 0#2) := by
  rw [legal_iff_formula, upperBits_eq_zero_iff, ← zField]
  tauto

/-- The legal words by value (R43). -/
theorem legal_iff_eighteen (w : Word) :
    legal w = true ↔ w.toNat ≤ 0xE ∨ w = 0x13#32 ∨ w = 0x23#32 ∨ w = 0x33#32 := by
  simp only [legal_iff_fields, ne_eq, BitVec.toNat_eq, opcField_toNat, cntField_toNat, zField_toNat, BitVec.reduceToNat]
  omega

/-- Each of the eighteen words decodes to a command that is not the reserved row's, and is that command's word. -/
theorem exists_command_of_legal {w : Word} (h : legal w = true) :
    ∃ i, decodeWord w = .ok i ∧ (∀ v, i ≠ .reserved v) ∧ encode i = w := by
  obtain small | rfl | rfl | rfl := (legal_iff_eighteen w).mp h
  · obtain ⟨n, n_le, rfl⟩ : ∃ n ≤ 0xE, w = BitVec.ofNat 32 n := ⟨w.toNat, small, by simp⟩
    interval_cases n <;> exact ⟨_, rfl, by simp [commandOf], rfl⟩
  all_goals exact ⟨_, rfl, by simp [commandOf], rfl⟩

/-- An illegal word is the reserved row's or no command at all (R44). -/
theorem decodeWord_of_illegal {w : Word} (h : legal w = false) :
    decodeWord w = .ok (.reserved w) ∨ ∃ e, decodeWord w = .error e := by
  rw [← Bool.not_eq_true, legal_iff_fields] at h
  unfold decodeWord
  split_ifs with reserved z cnt
  · exact .inl rfl
  · exact .inr ⟨_, rfl⟩
  · exact .inr ⟨_, rfl⟩
  · tauto

theorem legal_iff_decodes (w : Word) :
    legal w = true ↔ ∃ i, decodeWord w = .ok i ∧ ∀ v, i ≠ .reserved v := by
  constructor
  · intro h
    obtain ⟨i, decoded, command, -⟩ := exists_command_of_legal h
    exact ⟨i, decoded, command⟩
  · rintro ⟨i, decoded, command⟩
    by_contra illegal
    obtain reserved | ⟨e, error⟩ := decodeWord_of_illegal (Bool.eq_false_iff.mpr illegal)
    · exact command w (Except.ok.inj (decoded.symm.trans reserved))
    · exact nomatch decoded.symm.trans error

end Sys2Proof
end

