-- ==== Sys2Proof/Proofs/CommandEffect.lean ====
section
/-! What a word written to CMD does while BUSY = 0: an illegal word raises CmdError(1), and a command that can change the
datapath does change it in one state (spec/30_encoding.md rules R44 and R45, 44_control.md rule R71). -/

namespace Sys2Proof.Machine

open Sys2Proof

/-- `withError` and `raiseCmdError` are the two spellings of `raise CmdError(code)` (R75). -/
theorem State.raiseCmdError_eq_withError (s : State) (code : ErrCode) : s.raiseCmdError code = s.withError code := by
  cases h : s.err <;> simp [State.raiseCmdError, State.withError, h]

theorem State.illegalCommand_of_idle {s : State} (idle : s.phase = .idle) :
    s.illegalCommand = .next (s.withError .illegalCmd) := by
  simp [State.illegalCommand_eq, State.busy, idle, State.raiseCmdError_eq_withError]

theorem State.command_of_idle {s : State} (idle : s.phase = .idle) (rule : Datapath → Datapath) :
    s.command rule = .next { s with dp := rule s.dp, done := true } := by
  simp [State.command_eq, State.busy, idle]

theorem State.roundCommand_of_idle {s : State} (idle : s.phase = .idle) (round : s.dp.round ≠ 0)
    (rule : Datapath → Datapath) : s.roundCommand rule = .next { s with dp := rule s.dp, done := true } := by
  simp [State.roundCommand_eq, State.busy, idle, show s.dp.round ≠ 0#5 from round]

/-- The reserved row's words and the words that are no command end in the same rejection (R44). -/
theorem busWrite_cmd_of_illegal {w : Word} {s : State} (illegal : legal w = false) (idle : s.phase = .idle) :
    busWrite 0x0C#8 w s = .next (s.withError .illegalCmd) := by
  rw [busWrite_cmd, ← State.illegalCommand_of_idle idle]
  obtain reserved | ⟨e, error⟩ := decodeWord_of_illegal illegal
  · rw [reserved]
    rfl
  · rw [error]

theorem expandR_extract_low (t : Tables) (r : BitVec 24) : (expandR t r).extractLsb' 0 20 = r.setWidth 20 :=
  BitVec.extractLsb'_append_eq_right

theorem permuteBits_extract_high (t : Tables) (s : BitVec 20) : (permuteBits t s).extractLsb' 20 4 = 0xF#4 :=
  BitVec.extractLsb'_append_eq_left

/-- Registers that every command able to change the datapath does change, whatever the tables hold: the bit of TLO turns
with ROT and ROTI, bit 20 of EXPR is one that MIX clears, RKEY is the complement of what COMPRESS gives, and ROUND = 1 lets
ROT, SWAP and ROUND pass. -/
def telltale : Datapath :=
  { Datapath.zero with
    pt0 := 1
    tlo := 1
    round := 1
    expr := 0x00100001
    rkey := ~~~compressKey Config.params.tables 1 0
    grp := 1 }

/-- The idle state with these registers. -/
def telltaleState : State := { State.reset with dp := telltale }

theorem compress_telltale : telltale.compress Config.params ≠ telltale := by
  intro same
  have rkey := congrArg Datapath.rkey same
  rw [Datapath.compress_rkey] at rkey
  exact BitVec.ne_not_self (by decide) rkey

theorem expand_telltale : telltale.expand Config.params ≠ telltale := by
  intro same
  have low := congrArg (fun d => d.expr.extractLsb' 0 20) same
  rw [Datapath.expand_expr, expandR_extract_low] at low
  exact absurd low (by decide)

theorem permute_telltale : telltale.permute Config.params ≠ telltale := by
  intro same
  have high := congrArg (fun d => d.pbox.extractLsb' 20 4) same
  rw [Datapath.permute_pbox, permuteBits_extract_high] at high
  exact absurd high (by decide)

theorem oneRound_telltale : telltale.oneRound Config.params ≠ telltale := by
  intro same
  have round := congrArg Datapath.round same
  rw [Datapath.oneRound_round] at round
  exact absurd round (by decide)

theorem rotateBy_telltale {cnt : BitVec 2} (h : cnt ≠ 0) : telltale.rotateBy Config.params cnt.toNat ≠ telltale := by
  intro same
  have tlo := congrArg Datapath.tlo same
  revert cnt
  decide

/-- Only NOP, ROTI 0 and DECODE never write a datapath register themselves (R71). -/
theorem eq_of_exec_keeps_telltale {i : Instr} (command : ∀ v, i ≠ .reserved v) {t : State}
    (next : exec i telltaleState = .next t) (keeps : t.dp = telltale) : i = .nop ∨ i = .roti 0 ∨ i = .decode := by
  have of_command {rule : Datapath → Datapath} (h : telltaleState.command rule = .next t) : rule telltale = telltale := by
    rw [State.command_of_idle rfl] at h
    cases h
    exact keeps
  have of_roundCommand {rule : Datapath → Datapath} (h : telltaleState.roundCommand rule = .next t) :
      rule telltale = telltale := by
    rw [State.roundCommand_of_idle rfl (by decide)] at h
    cases h
    exact keeps
  cases i with
  | nop => exact .inl rfl
  | decode => exact .inr (.inr rfl)
  | reserved v => exact absurd rfl (command v)
  | roti cnt =>
    by_cases zero : cnt = 0
    · exact .inr (.inl (congrArg Instr.roti zero))
    · exact absurd (of_command next) (rotateBy_telltale zero)
  | load => exact absurd (congrArg Datapath.round (of_command next)) (by decide)
  | rot => exact absurd (congrArg Datapath.tlo (of_roundCommand next)) (by decide)
  | expand => exact absurd (of_command next) expand_telltale
  | compress => exact absurd (of_command next) compress_telltale
  | mix => exact absurd (congrArg Datapath.expr (of_command next)) (by decide)
  | sbox => exact absurd (congrArg Datapath.grp (of_command next)) (by decide)
  | pbox => exact absurd (of_command next) permute_telltale
  | swap => exact absurd (congrArg Datapath.round (of_roundCommand next)) (by decide)
  | round => exact absurd (of_roundCommand next) oneRound_telltale
  | finish => exact absurd (congrArg Datapath.pt0 (of_command next)) (by decide)
  | check => exact absurd (congrArg Datapath.result (of_command next)) (by decide)
  | clear => exact absurd (congrArg Datapath.round (of_command (rule := fun _ => Datapath.zero) next)) (by decide)

/-- The legal words whose write can leave the datapath alone in every state (R71). -/
theorem eq_encode_of_keepsDatapath {w : Word} (legal_w : legal w = true) (keeps : keepsDatapath w) :
    w = encode .nop ∨ w = encode (.roti 0) ∨ w = encode .decode := by
  obtain ⟨i, decoded, command, rfl⟩ := exists_command_of_legal legal_w
  obtain ⟨t, next, same⟩ := keeps telltaleState rfl
  rw [busWrite_cmd, decoded] at next
  obtain rfl | rfl | rfl := eq_of_exec_keeps_telltale command next same <;> simp

end Sys2Proof.Machine
end

