-- ==== Sys2Proof/Proofs/EncodingFamily.lean ====
section
/-! The obligations on the command words of spec/30_encoding.md: the legal ones (R43) and the rejected ones (R44). -/

namespace Sys2Proof.Machine

open Sys2Proof

/-- Settles O4: the formula, the values and the decoder, each equivalent to `legal`. -/
theorem legalWordsAreTheEighteen : Obligations.LegalWordsAreTheEighteen := fun w =>
  ⟨legal_iff_formula w, legal_iff_eighteen w, legal_iff_decodes w⟩

theorem legal_of_isNoOp {w : Word} (noOp : isNoOp w) : legal w = true := by
  by_contra illegal
  have rejected := busWrite_cmd_of_illegal (s := State.reset) (Bool.eq_false_iff.mpr illegal) rfl
  exact nomatch rejected.symm.trans (noOp State.reset rfl)

theorem keepsDatapath_of_isNoOp {w : Word} (noOp : isNoOp w) : keepsDatapath w :=
  fun s idle => ⟨_, noOp s idle, rfl⟩

theorem not_isNoOp_decode : ¬ isNoOp (encode .decode) := fun noOp =>
  nomatch noOp State.reset rfl

/-- NOP's rule is the identity, and so is the rotation by 0 (R54, R71). -/
theorem isNoOp_iff (w : Word) : isNoOp w ↔ w = 0x0#32 ∨ w = 0x3#32 := by
  constructor
  · intro noOp
    obtain nop | roti | rfl := eq_encode_of_keepsDatapath (legal_of_isNoOp noOp) (keepsDatapath_of_isNoOp noOp)
    · exact .inl nop
    · exact .inr roti
    · exact absurd noOp not_isNoOp_decode
  · rintro (rfl | rfl) s idle
    · exact s.command_of_idle idle fun d => d
    · exact s.command_of_idle idle (Datapath.rotateBy Config.params 0)

theorem legal_of_reservedOpcode {w : Word} (h : opcField w = 0xF#4) : legal w = false := by
  simp [legal, h]

/-- Settles O6: both kinds of illegal word meet the same rejection, and a word that is never rejected and never changes the
datapath or PHASE is NOP's or ROTI 0's. -/
theorem illegalWordsRaiseIllegalCmd : Obligations.IllegalWordsRaiseIllegalCmd :=
  ⟨fun _ _ idle => ⟨fun illegal => busWrite_cmd_of_illegal illegal idle, State.illegalCommand_of_idle idle⟩,
    fun _ => legal_of_reservedOpcode, isNoOp_iff⟩

end Sys2Proof.Machine
end

