-- ==== Sys2Proof/Proofs/LoaderFamily.lean ====
section
/-! The obligation on LOAD of spec/40_loader.md (R48, R49). LOAD joins bytes of the input buffer; neighbouring bytes of
one input register join to one bit range of it. -/

namespace Sys2Proof.Machine

open Sys2Proof

/-- A bit range inside a bit range. -/
theorem extractLsb'_extractLsb' {w start len : Nat} (v : BitVec w) (base width : Nat) (inside : start + len ≤ width) :
    (v.extractLsb' base width).extractLsb' start len = v.extractLsb' (base + start) len := by
  apply BitVec.eq_of_getLsbD_eq
  intro i i_lt
  have i_in_width : start + i < width := by omega
  simp [i_lt, i_in_width, Nat.add_assoc]

/-- The 20 bits kept of a 24-bit value shifted right by 4 are its upper 20 bits (R48). -/
theorem setWidth_ushiftRight_four (v : BitVec 24) : (v >>> 4).setWidth 20 = v.extractLsb' 4 20 := by
  rw [BitVec.ushiftRight_eq_extractLsb'_of_lt (by decide)]
  exact BitVec.setWidth_append_eq_right

/-- Key bytes 0 to 2 are the three upper bytes of IN1, and byte 3 is the low byte of IN2 (R17). -/
theorem Datapath.timeLow_eq (d : Datapath) : d.timeLow = d.in2.extractLsb' 0 8 ++ d.in1.extractLsb' 8 24 := by
  have upper_in1 : d.key 2 ++ d.key 1 ++ d.key 0 = d.in1.extractLsb' 8 24 := by
    simp only [Datapath.key]
    rw [BitVec.extractLsb'_append_extractLsb'_eq_extractLsb' (by rfl),
      BitVec.extractLsb'_append_extractLsb'_eq_extractLsb' (by rfl)]
  calc d.timeLow = d.key 3 ++ (d.key 2 ++ d.key 1 ++ d.key 0) := by
        simp only [Datapath.timeLow, BitVec.append_assoc, BitVec.cast_eq]
    _ = d.in2.extractLsb' 0 8 ++ d.in1.extractLsb' 8 24 := by rw [upper_in1, Datapath.key]

/-- Cipher bytes 0 and 1 and the low nibble of byte 2 are the low 20 bits of IN0 (R17). -/
theorem Datapath.cipher_low_bits (d : Datapath) :
    (d.cipher 2).extractLsb' 0 4 ++ d.cipher 1 ++ d.cipher 0 = d.in0.extractLsb' 0 20 := by
  simp only [Datapath.cipher]
  rw [extractLsb'_extractLsb' _ _ _ (by decide), BitVec.extractLsb'_append_extractLsb'_eq_extractLsb' (by rfl),
    BitVec.extractLsb'_append_extractLsb'_eq_extractLsb' (by rfl)]

/-- Cipher bytes 2 and 3 are the upper half of IN0, and byte 4 is the low byte of IN1 (R17). -/
theorem Datapath.rWide_eq (d : Datapath) : d.rWide = d.in1.extractLsb' 0 8 ++ d.in0.extractLsb' 16 16 := by
  have upper_in0 : d.cipher 3 ++ d.cipher 2 = d.in0.extractLsb' 16 16 := by
    simp only [Datapath.cipher]
    rw [BitVec.extractLsb'_append_extractLsb'_eq_extractLsb' (by rfl)]
  calc d.rWide = d.cipher 4 ++ (d.cipher 3 ++ d.cipher 2) := by
        simp only [Datapath.rWide, BitVec.append_assoc, BitVec.cast_eq]
    _ = d.in1.extractLsb' 0 8 ++ d.in0.extractLsb' 16 16 := by rw [upper_in0, Datapath.cipher]

/-- What the wide value leaves to R, its low nibble being of L: the low byte of IN1 over the upper 12 bits of IN0 (R49). -/
theorem Datapath.rWide_upper_bits (d : Datapath) :
    (d.rWide >>> 4).setWidth 20 = d.in1.extractLsb' 0 8 ++ d.in0.extractLsb' 20 12 := by
  rw [setWidth_ushiftRight_four, d.rWide_eq, BitVec.extractLsb'_append_eq_ite]
  simp [extractLsb'_extractLsb']

/-- The register writes of LOAD by the bits of IN0, IN1 and IN2 (R49). -/
theorem Datapath.load_eq (d : Datapath) :
    d.load = { d with
      tlo := d.in2.extractLsb' 0 8 ++ d.in1.extractLsb' 8 24
      thi := d.in2.extractLsb' 8 8
      l := 0#4 ++ d.in0.extractLsb' 0 20
      r := 0#4 ++ d.in1.extractLsb' 0 8 ++ d.in0.extractLsb' 20 12
      round := 16#5 } := by
  have l_eq : d.load.l = 0#4 ++ d.in0.extractLsb' 0 20 := by
    rw [d.load_l, d.cipher_low_bits, BitVec.setWidth_eq_append (by decide), BitVec.cast_eq]
  have r_eq : d.load.r = 0#4 ++ d.in1.extractLsb' 0 8 ++ d.in0.extractLsb' 20 12 := by
    rw [d.load_r, d.rWide_upper_bits, BitVec.setWidth_eq_append (by decide), BitVec.append_assoc]
  rw [← d.timeLow_eq, ← l_eq, ← r_eq]
  rfl

/-- Settles O11: LOAD's word, and its rule by bits of the input buffer. -/
theorem loadSplitsTheInputBuffer : Obligations.LoadSplitsTheInputBuffer := by
  refine ⟨rfl, fun s idle => ?_⟩
  rw [← s.dp.load_eq]
  exact s.command_of_idle idle Datapath.load

end Sys2Proof.Machine
end

