-- ==== Sys2Proof/Proofs/TimeRings.lean ====
section
/-! The time register as two 20-bit rings: what one RotStep moves where, and that n RotSteps turn both rings right by n
(spec/41_round_engine.md rules R50 and R51). -/

namespace Sys2Proof.Machine

open Sys2Proof

/-- Turning right by r takes bit i from r places above it, around the end. -/
theorem getLsbD_rotateRight_eq_mod {w : Nat} (x : BitVec w) (r : Nat) {i : Nat} (i_lt : i < w) :
    (x.rotateRight r).getLsbD i = x.getLsbD ((i + r) % w) := by
  have r_lt : r % w < w := Nat.mod_lt r (by omega)
  rw [BitVec.getLsbD_rotateRight, ← Nat.add_mod_mod i r w]
  generalize r % w = r at r_lt
  by_cases inside : i < w - r
  · have sum_lt : i + r < w := by omega
    simp [inside, Nat.mod_eq_of_lt sum_lt, Nat.add_comm]
  · have wrapped : (i + r) % w = i - (w - r) := by
      rw [Nat.mod_eq_sub_mod (by omega), Nat.mod_eq_of_lt (by omega)]
      omega
    simp [inside, i_lt, wrapped]

theorem rotateRight_zero {w : Nat} (x : BitVec w) : x.rotateRight 0 = x := by
  apply BitVec.eq_of_getLsbD_eq
  intro i i_lt
  rw [getLsbD_rotateRight_eq_mod x 0 i_lt, Nat.add_zero, Nat.mod_eq_of_lt i_lt]

theorem rotateRight_rotateRight {w : Nat} (x : BitVec w) (m n : Nat) :
    (x.rotateRight m).rotateRight n = x.rotateRight (m + n) := by
  apply BitVec.eq_of_getLsbD_eq
  intro i i_lt
  have turned_lt : (i + n) % w < w := Nat.mod_lt _ (by omega)
  rw [getLsbD_rotateRight_eq_mod _ _ i_lt, getLsbD_rotateRight_eq_mod _ _ turned_lt,
    getLsbD_rotateRight_eq_mod _ _ i_lt, Nat.mod_add_mod, Nat.add_assoc, Nat.add_comm n]

theorem getLsbD_ringA (lo : BitVec 32) {i : Nat} (i_lt : i < 20) : (ringA lo).getLsbD i = lo.getLsbD i := by
  simp [ringA, i_lt]

theorem getLsbD_ringB (lo : BitVec 32) (hi : BitVec 8) (i : Nat) :
    (ringB lo hi).getLsbD i = if i < 12 then lo.getLsbD (20 + i) else hi.getLsbD (i - 12) := by
  rw [ringB, BitVec.getLsbD_append, BitVec.getLsbD_extractLsb']
  split <;> simp [*]

/-- The TLO rows of the bit-move table (R51). -/
theorem getLsbD_rotStep_copy_lo (t : BitVec 32 × BitVec 8) (i : Nat) :
    (rotStep .copy t).1.getLsbD i =
      if i = 31 then t.2.getLsbD 0 else if i = 19 then t.1.getLsbD 0 else t.1.getLsbD (i + 1) := by
  have shifted : (writeBit t.1 20 (bit t.1 0) >>> 1).getLsbD i =
      if i = 19 then t.1.getLsbD 0 else t.1.getLsbD (i + 1) := by
    rw [BitVec.getLsbD_ushiftRight, getLsbD_writeBit, Nat.add_comm 1]
    exact if_congr (by omega) rfl rfl
  rw [← shifted, rotStep, getLsbD_writeBit]
  exact if_congr (by omega) rfl rfl

/-- The THI rows of the bit-move table (R51). -/
theorem getLsbD_rotStep_copy_hi (t : BitVec 32 × BitVec 8) (i : Nat) :
    (rotStep .copy t).2.getLsbD i = if i = 7 then t.1.getLsbD 20 else t.2.getLsbD (i + 1) := by
  rw [rotStep, getLsbD_writeBit, BitVec.getLsbD_ushiftRight, Nat.add_comm 1]
  exact if_congr (by omega) rfl rfl

theorem ringA_rotStep (t : BitVec 32 × BitVec 8) :
    ringA (rotStep .copy t).1 = (ringA t.1).rotateRight 1 := by
  apply BitVec.eq_of_getLsbD_eq
  intro i i_lt
  have next_lt : (i + 1) % 20 < 20 := Nat.mod_lt _ (by decide)
  rw [getLsbD_rotateRight_eq_mod _ _ i_lt, getLsbD_ringA _ i_lt, getLsbD_ringA _ next_lt, getLsbD_rotStep_copy_lo,
    if_neg (by omega)]
  by_cases top : i = 19
  · rw [if_pos top, top]
  · rw [if_neg top, Nat.mod_eq_of_lt (by omega)]

/-- Ring B crosses from THI to TLO between its bits 12 and 11 (R51). -/
theorem ringB_rotStep (t : BitVec 32 × BitVec 8) :
    ringB (rotStep .copy t).1 (rotStep .copy t).2 = (ringB t.1 t.2).rotateRight 1 := by
  apply BitVec.eq_of_getLsbD_eq
  intro i i_lt
  rw [getLsbD_rotateRight_eq_mod _ _ i_lt, getLsbD_ringB, getLsbD_ringB, getLsbD_rotStep_copy_lo,
    getLsbD_rotStep_copy_hi]
  obtain in_lo | rfl | in_hi | rfl : i < 11 ∨ i = 11 ∨ 12 ≤ i ∧ i < 19 ∨ i = 19 := by omega
  · rw [Nat.mod_eq_of_lt (by omega), if_pos (by omega), if_neg (by omega), if_neg (by omega), if_pos (by omega),
      Nat.add_assoc]
  · rfl
  · rw [Nat.mod_eq_of_lt (by omega), if_neg (by omega), if_neg (by omega), if_neg (by omega), Nat.sub_add_comm in_hi.1]
  · rfl

/-- n RotSteps turn both rings right by n (R51). -/
theorem rings_rotSteps (n : Nat) (t : BitVec 32 × BitVec 8) :
    ringA (rotSteps .copy n t).1 = (ringA t.1).rotateRight n ∧
    ringB (rotSteps .copy n t).1 (rotSteps .copy n t).2 = (ringB t.1 t.2).rotateRight n := by
  induction n generalizing t with
  | zero => exact ⟨(rotateRight_zero _).symm, (rotateRight_zero _).symm⟩
  | succ n ih =>
    obtain ⟨turned_a, turned_b⟩ := ih (rotStep .copy t)
    rw [ringA_rotStep, rotateRight_rotateRight, Nat.add_comm] at turned_a
    rw [ringB_rotStep, rotateRight_rotateRight, Nat.add_comm] at turned_b
    exact ⟨turned_a, turned_b⟩

/-- The two rings hold all of TLO (R51). -/
theorem loOfRings_rings (lo : BitVec 32) (hi : BitVec 8) : loOfRings (ringA lo) (ringB lo hi) = lo := by
  rw [loOfRings, ringA, ringB, BitVec.extractLsb'_append_eq_right,
    BitVec.extractLsb'_append_extractLsb'_eq_extractLsb' (by rfl)]
  exact BitVec.extractLsb'_eq_self

/-- Ring B holds all of THI (R51). -/
theorem hiOfRings_ringB (lo : BitVec 32) (hi : BitVec 8) : hiOfRings (ringB lo hi) = hi :=
  BitVec.extractLsb'_append_eq_left

/-- The time register after n RotSteps of this hardware, by its rings (R51, R54). -/
theorem Datapath.rotateBy_eq_turn (n : Nat) (d : Datapath) :
    d.rotateBy Config.params n = { d with tlo := turnLo n d, thi := turnHi n d } := by
  obtain ⟨turned_a, turned_b⟩ := rings_rotSteps n (d.tlo, d.thi)
  rw [turnLo, turnHi, ← turned_a, ← turned_b, loOfRings_rings, hiOfRings_ringB]
  rfl

end Sys2Proof.Machine
end

