-- ==== Sys2Proof/Proofs/RoundEngineFamily.lean ====
section
/-! The obligations on the round engine of spec/41_round_engine.md (R51 to R53, R55 to R59). -/

namespace Sys2Proof.Machine

open Sys2Proof

/-- Settles O12: each range of the bit-move table is one branch of its TLO or THI rows. -/
theorem rotStepTurnsTwoRings : Obligations.RotStepTurnsTwoRings := by
  intro lo hi t
  have lo_bit : ∀ i, bit t.1 i = _ := getLsbD_rotStep_copy_lo (lo, hi)
  have hi_bit : ∀ i, bit t.2 i = _ := getLsbD_rotStep_copy_hi (lo, hi)
  refine ⟨ringA_rotStep (lo, hi), ringB_rotStep (lo, hi), fun i i_le => ?_, lo_bit 19, fun i le_i i_le => ?_, lo_bit 31,
    fun i i_le => ?_, hi_bit 7⟩
  · rw [lo_bit, if_neg (by omega), if_neg (by omega)]
  · rw [lo_bit, if_neg (by omega), if_neg (by omega)]
  · rw [hi_bit, if_neg (by omega)]

/-- ROT, SWAP and ROUND are rejected at ROUND = 0 (R45). -/
theorem State.roundCommand_of_round_zero {s : State} (idle : s.phase = .idle) (zero : s.dp.round = 0)
    (rule : Datapath → Datapath) : s.roundCommand rule = .next (s.withError .badRound) := by
  simp [State.roundCommand_eq, State.busy, idle, show s.dp.round = 0#5 from zero, State.raiseCmdError_eq_withError]

/-- The rounds of a double rotation in this hardware (R52). -/
theorem rotAmount_params (round : BitVec 5) :
    rotAmount Config.params round = if round = 16#5 ∨ round = 8#5 ∨ round = 7#5 ∨ round = 3#5 then 2 else 1 := by
  simp [rotAmount, Config.params]

/-- Settles O14: ROT is the rotation by the amount of its round. -/
theorem rotTurnsBothRings : Obligations.RotTurnsBothRings := by
  refine ⟨rfl, fun s idle => ⟨fun zero => State.roundCommand_of_round_zero idle zero _, fun n nonzero amount => ?_⟩⟩
  rw [← rotAmount_params] at amount
  rw [← Datapath.rotateBy_eq_turn, amount]
  exact State.roundCommand_of_idle idle nonzero (Datapath.rot Config.params)

theorem getLsbD_expandR_low (t : Tables) (r : BitVec 24) {i : Nat} (i_lt : i < 20) :
    (expandR t r).getLsbD i = r.getLsbD i := by
  rw [expandR, BitVec.getLsbD_append, if_pos i_lt, BitVec.getLsbD_setWidth, decide_eq_true i_lt, Bool.true_and]

/-- The mask of bit 20+i of the expanded value is over R[19:0] (R55). -/
theorem getLsbD_expandR_high (t : Tables) (r : BitVec 24) (i : Fin 10) :
    (expandR t r).getLsbD (20 + i.val) = true ↔
      ∃ j < 20, r.getLsbD j = true ∧ (t.exp.get i).getLsbD j = true := by
  rw [expandR, BitVec.getLsbD_append, if_neg (by omega), Nat.add_sub_cancel_left, getLsbD_ofFnLE_fin, meets_mask_iff]
  refine exists_congr fun j => ?_
  simp only [BitVec.getLsbD_setWidth, Bool.and_eq_true, decide_eq_true_eq, and_assoc]
  constructor
  · rintro ⟨-, selected⟩
    exact selected
  · intro selected
    exact ⟨by omega, selected⟩

/-- Settles O16: the two ranges of bits of the expanded R. -/
theorem expandSelectsByMask : Obligations.ExpandSelectsByMask :=
  ⟨rfl, fun s idle => ⟨expandR Config.params.tables s.dp.r, State.command_of_idle idle _,
    fun _ i_lt => getLsbD_expandR_low _ _ i_lt, getLsbD_expandR_high _ _⟩⟩

/-- A bit of the round key is set by either half of the time register (R56). -/
theorem getLsbD_compressKey (t : Tables) (lo : BitVec 32) (hi : BitVec 8) (i : Fin 30) :
    (compressKey t lo hi).getLsbD i.val = true ↔
      (∃ j, lo.getLsbD j = true ∧ (t.cmpLo.get i).getLsbD j = true) ∨
      (∃ j, hi.getLsbD j = true ∧ (t.cmpHi.get i).getLsbD j = true) := by
  rw [compressKey, getLsbD_ofFnLE_fin, Bool.or_eq_true, meets_mask_iff, meets_mask_iff]

/-- Settles O17: COMPRESS writes the round key of the time register as it stands. -/
theorem compressSelectsByMask : Obligations.CompressSelectsByMask :=
  ⟨rfl, fun s idle => ⟨compressKey Config.params.tables s.dp.tlo s.dp.thi, State.command_of_idle idle _,
    getLsbD_compressKey _ _ _⟩⟩

/-- The bits that MIX clears in EXPR (R57). -/
theorem getLsbD_mixClearMask : ∀ i < 30, (0x00F00000#30).getLsbD i = (decide (20 ≤ i) && decide (i ≤ 23)) := by
  decide

/-- Settles O18: MIX is taken from EXPR before the clear. -/
theorem mixXorsAndClearsTheNibble : Obligations.MixXorsAndClearsTheNibble := by
  refine ⟨rfl, fun s idle => ⟨s.dp.expr ^^^ s.dp.rkey, s.dp.expr &&& ~~~0x00F00000#30,
    State.command_of_idle idle Datapath.mixKey, fun i _ => ?_, fun i i_lt => ?_⟩⟩
  · exact BitVec.getLsbD_xor
  · rw [bit, BitVec.getLsbD_and, BitVec.getLsbD_not, getLsbD_mixClearMask i i_lt, decide_eq_true i_lt, Bool.true_and]

/-- Counting ROUND down cannot wrap once 0 is rejected (R58). -/
theorem toNat_sub_one_of_ne_zero {round : BitVec 5} (nonzero : round ≠ 0) : (round - 1).toNat = round.toNat - 1 := by
  bv_omega

/-- Settles O22: SWAP's rule, its counter as a number. -/
theorem swapExchangesTheHalves : Obligations.SwapExchangesTheHalves := by
  refine ⟨rfl, fun s idle => ⟨fun zero => State.roundCommand_of_round_zero idle zero _, fun nonzero => ?_⟩⟩
  rw [← toNat_sub_one_of_ne_zero nonzero, BitVec.ofNat_toNat, BitVec.setWidth_eq]
  exact State.roundCommand_of_idle idle nonzero Datapath.swap

theorem execAll_cons_of_next {i : Instr} {s t : State} (next : exec i s = .next t) (rest : List Instr) :
    execAll (i :: rest) s = execAll rest t := by
  rw [execAll, next]

/-- A command that does not look at ROUND, after one that has completed with the registers `d` (R45). -/
theorem execAll_cons_of_command {i : Instr} {rule : Datapath → Datapath} (arm : ∀ t, exec i t = t.command rule)
    {s : State} (idle : s.phase = .idle) (d : Datapath) (rest : List Instr) :
    execAll (i :: rest) (s.complete d) = execAll rest (s.complete (rule d)) :=
  execAll_cons_of_next ((arm _).trans (State.command_of_idle (s := s.complete d) idle rule)) rest

/-- The seven commands of a round, each accepted because PHASE stays IDLE and ROUND is the same until SWAP (R59). -/
theorem execAll_roundCommands {s : State} (idle : s.phase = .idle) (nonzero : s.dp.round ≠ 0) :
    execAll roundCommands s = .next (s.complete (s.dp.oneRound Config.params)) := by
  have rot : exec .rot s = .next (s.complete (s.dp.rot Config.params)) := State.roundCommand_of_idle idle nonzero _
  have swap (d : Datapath) (same_round : d.round = s.dp.round) :
      exec .swap (s.complete d) = .next (s.complete d.swap) :=
    State.roundCommand_of_idle (s := s.complete d) idle (same_round.symm ▸ nonzero) Datapath.swap
  rw [Datapath.oneRound_eq, roundCommands, execAll_cons_of_next rot,
    execAll_cons_of_command (i := .expand) (fun _ => rfl) idle,
    execAll_cons_of_command (i := .compress) (fun _ => rfl) idle,
    execAll_cons_of_command (i := .mix) (fun _ => rfl) idle,
    execAll_cons_of_command (i := .sbox) (fun _ => rfl) idle,
    execAll_cons_of_command (i := .pbox) (fun _ => rfl) idle,
    execAll_cons_of_next (swap _ ?same_round), execAll]
  case same_round => simp

/-- ROUND leaves the input buffer, RESULT and the plaintext as they were (R59). -/
theorem Datapath.oneRound_keeps (p : Params) (d : Datapath) :
    d.oneRound p = { d.oneRound p with
      in0 := d.in0, in1 := d.in1, in2 := d.in2, result := d.result, pt0 := d.pt0, pt1 := d.pt1 } := by
  rw [← d.oneRound_in0 p, ← d.oneRound_in1 p, ← d.oneRound_in2 p, ← d.oneRound_result p, ← d.oneRound_pt0 p,
    ← d.oneRound_pt1 p]

/-- Settles O23: both runs end in the state of one round. -/
theorem roundIsTheSevenCommands : Obligations.RoundIsTheSevenCommands := by
  refine ⟨rfl, fun s idle => ⟨fun zero => State.roundCommand_of_round_zero idle zero _, fun nonzero =>
    ⟨s.complete (s.dp.oneRound Config.params), State.roundCommand_of_idle idle nonzero _,
      execAll_roundCommands idle nonzero, ?_, ?_⟩⟩⟩
  · rw [State.complete_dp, Datapath.oneRound_round]
    exact toNat_sub_one_of_ne_zero nonzero
  · exact congrArg s.complete (s.dp.oneRound_keeps Config.params)

end Sys2Proof.Machine
end

