-- ==== Sys2Proof/Proofs/SubstitutionFamily.lean ====
section
/-! The obligations on the substitution stage and the permutation engine of spec/42_sbox_pbox.md (R60 to R64). -/

namespace Sys2Proof.Machine

open Sys2Proof

/-- The position of the low pool when Regroup's loop reaches index i: four bits a group (R60). -/
def lowPool (i : Nat) : Nat := 4 * (i / 6) + min (i % 6) 4

/-- The position of the high pool when Regroup's loop reaches index i: two bits a group (R60). -/
def highPool (i : Nat) : Nat := 20 + 2 * (i / 6) + (i % 6 - 4)

/-- The bit of m that becomes bit i of `Regroup(m)` (R60). -/
def regroupSource (i : Nat) : Nat := if i % 6 < 4 then lowPool i else highPool i

/-- One iteration moves one bit and advances its pool (R60). -/
theorem regroupLoop_succ (m : BitVec 30) (todo i : Nat) (g : BitVec 30) :
    regroupLoop m (todo + 1) i (lowPool i) (highPool i) g =
      regroupLoop m todo (i + 1) (lowPool (i + 1)) (highPool (i + 1)) (writeBit g i (m.getLsbD (regroupSource i))) := by
  rw [regroupLoop, regroupSource]
  by_cases low : i % 6 < 4
  · have next_low : lowPool i + 1 = lowPool (i + 1) := by unfold lowPool; omega
    have same_high : highPool i = highPool (i + 1) := by unfold highPool; omega
    rw [if_neg (by omega), if_pos low, next_low, ← same_high]
  · have same_low : lowPool i = lowPool (i + 1) := by unfold lowPool; omega
    have next_high : highPool i + 1 = highPool (i + 1) := by unfold highPool; omega
    rw [if_pos (by omega), if_neg low, next_high, ← same_low]

/-- The loop from index i writes the bits from i on, each from its own source. -/
theorem getLsbD_regroupLoop (m : BitVec 30) (todo i : Nat) (g : BitVec 30) {k : Nat} (k_lt : k < 30) :
    (regroupLoop m todo i (lowPool i) (highPool i) g).getLsbD k =
      if i ≤ k ∧ k < i + todo then m.getLsbD (regroupSource k) else g.getLsbD k := by
  induction todo generalizing i g with
  | zero => rw [regroupLoop, if_neg (by omega)]
  | succ todo ih =>
    rw [regroupLoop_succ, ih, getLsbD_writeBit]
    by_cases here : k = i
    · subst here
      rw [if_neg (by omega), if_pos ⟨rfl, k_lt⟩, if_pos (by omega)]
    · rw [if_neg (c := k = i ∧ k < 30) (by omega)]
      exact if_congr (by omega) rfl rfl

/-- Regroup in closed form, by position (R60). -/
theorem getLsbD_regroup (m : BitVec 30) {i : Nat} (i_lt : i < 30) :
    (regroup m).getLsbD i = m.getLsbD (regroupSource i) :=
  (getLsbD_regroupLoop m 30 0 0 i_lt).trans (if_pos (by omega))

/-- The low nibble of a field comes from the low pool (R60). -/
theorem regroupSource_low (j : Nat) {b : Nat} (b_lt : b < 4) : regroupSource (6 * j + b) = 4 * j + b := by
  rw [regroupSource, if_pos (by omega), lowPool]
  omega

/-- The two upper bits of a field come from the high pool (R60). -/
theorem regroupSource_high (j : Nat) {b : Nat} (b_lt : b < 2) : regroupSource (6 * j + (4 + b)) = 20 + 2 * j + b := by
  rw [regroupSource, if_neg (by omega), highPool]
  omega

/-- Regroup uses every bit of m (R60). -/
theorem exists_regroupSource_eq {k : Nat} (k_lt : k < 30) : ∃ i < 30, regroupSource i = k := by
  by_cases low : k < 20
  · refine ⟨6 * (k / 4) + k % 4, by omega, ?_⟩
    rw [regroupSource_low _ (by omega)]
    omega
  · refine ⟨6 * ((k - 20) / 2) + (4 + (k - 20) % 2), by omega, ?_⟩
    rw [regroupSource_high _ (by omega)]
    omega

theorem regroup_injective : Function.Injective regroup := by
  intro m m' same
  apply BitVec.eq_of_getLsbD_eq
  intro k k_lt
  obtain ⟨i, i_lt, rfl⟩ := exists_regroupSource_eq k_lt
  rw [← getLsbD_regroup m i_lt, ← getLsbD_regroup m' i_lt, same]

/-- Settles O19: six positions of each field, and every bit of m found again. -/
theorem regroupHasTheClosedForm : Obligations.RegroupHasTheClosedForm := by
  refine ⟨fun m j j_lt => ?_, fun _ _ same => regroup_injective same⟩
  have low {b : Nat} (b_lt : b < 4) : bit (regroup m) (6 * j + b) = bit m (4 * j + b) := by
    rw [bit, getLsbD_regroup m (by omega), regroupSource_low j b_lt]
  have high {b : Nat} (b_lt : b < 2) : bit (regroup m) (6 * j + (4 + b)) = bit m (20 + 2 * j + b) := by
    rw [bit, getLsbD_regroup m (by omega), regroupSource_high j b_lt]
  exact ⟨low (b := 0) (by decide), low (b := 1) (by decide), low (b := 2) (by decide), low (b := 3) (by decide),
    high (b := 0) (by decide), high (b := 1) (by decide)⟩

theorem getLsbD_lowNibble (e : Byte) {b : Nat} (b_lt : b < 4) : (lowNibble e).getLsbD b = e.getLsbD b := by
  rw [lowNibble, BitVec.getLsbD_extractLsb', decide_eq_true b_lt, Bool.true_and, Nat.zero_add]

theorem getLsbD_highNibble (e : Byte) {b : Nat} (b_lt : b < 4) : (highNibble e).getLsbD b = e.getLsbD (4 + b) := by
  rw [highNibble, BitVec.getLsbD_extractLsb', decide_eq_true b_lt, Bool.true_and]

/-- The places of five nibbles joined to 20 bits (R61). -/
theorem getLsbD_fiveNibbles (n₄ n₃ n₂ n₁ n₀ : BitVec 4) {b : Nat} (b_lt : b < 4) :
    (n₄ ++ n₃ ++ n₂ ++ n₁ ++ n₀).getLsbD b = n₀.getLsbD b ∧
    (n₄ ++ n₃ ++ n₂ ++ n₁ ++ n₀).getLsbD (4 + b) = n₁.getLsbD b ∧
    (n₄ ++ n₃ ++ n₂ ++ n₁ ++ n₀).getLsbD (8 + b) = n₂.getLsbD b ∧
    (n₄ ++ n₃ ++ n₂ ++ n₁ ++ n₀).getLsbD (12 + b) = n₃.getLsbD b ∧
    (n₄ ++ n₃ ++ n₂ ++ n₁ ++ n₀).getLsbD (16 + b) = n₄.getLsbD b := by
  have above (k : Nat) : ¬ 4 + k + b < 4 ∧ 4 + k + b - 4 = k + b := by omega
  simp only [BitVec.getLsbD_append]
  simp [b_lt, above 4, above 8, above 12]

/-- The table entry of lookup k (R61, R62). -/
def lookupEntry (p : Params) (g : BitVec 30) (table : Vector Byte 64) (k : Nat) : Byte :=
  sboxEntry table (groupField g (fieldOf p.sboxFieldOrder k))

/-- The five lookups write disjoint nibbles, each of one entry (R61, R63). -/
theorem getLsbD_substituteGroups (p : Params) (g : BitVec 30) {b : Nat} (b_lt : b < 4) :
    (substituteGroups p g).getLsbD b = (lookupEntry p g p.tables.sb1 1).getLsbD b ∧
    (substituteGroups p g).getLsbD (8 + b) = (lookupEntry p g p.tables.sb1 2).getLsbD (4 + b) ∧
    (substituteGroups p g).getLsbD (4 + b) = (lookupEntry p g p.tables.sb2 3).getLsbD b ∧
    (substituteGroups p g).getLsbD (16 + b) = (lookupEntry p g p.tables.sb2 4).getLsbD (4 + b) ∧
    (substituteGroups p g).getLsbD (12 + b) = (lookupEntry p g p.tables.sb3 5).getLsbD b := by
  obtain ⟨lookup1, lookup3, lookup2, lookup5, lookup4⟩ := getLsbD_fiveNibbles
    (highNibble (lookupEntry p g p.tables.sb2 4)) (lowNibble (lookupEntry p g p.tables.sb3 5))
    (highNibble (lookupEntry p g p.tables.sb1 2)) (lowNibble (lookupEntry p g p.tables.sb2 3))
    (lowNibble (lookupEntry p g p.tables.sb1 1)) b_lt
  rw [getLsbD_lowNibble _ b_lt] at lookup1 lookup3 lookup5
  rw [getLsbD_highNibble _ b_lt] at lookup2 lookup4
  exact ⟨lookup1, lookup2, lookup3, lookup4, lookup5⟩

/-- Settles O20: in this hardware lookup k reads field 5 − k. -/
theorem sboxLooksUpFiveFields : Obligations.SboxLooksUpFiveFields :=
  ⟨rfl, fun s idle => ⟨regroup s.dp.mix, substituteGroups Config.params (regroup s.dp.mix),
    State.command_of_idle idle _, rfl, fun _ b_lt => getLsbD_substituteGroups Config.params _ b_lt⟩⟩

/-- The mask of bit i of the permuted value is over SBOX[19:0] (R64). -/
theorem getLsbD_permuteBits_low (t : Tables) (s : BitVec 20) (i : Fin 20) :
    (permuteBits t s).getLsbD i.val = true ↔ ∃ j < 20, s.getLsbD j = true ∧ (t.perm.get i).getLsbD j = true := by
  rw [permuteBits, BitVec.getLsbD_append, if_pos i.isLt, getLsbD_ofFnLE_fin, meets_mask_iff]
  refine exists_congr fun j => ?_
  rw [BitVec.getLsbD_setWidth, Bool.and_eq_true, decide_eq_true_eq]
  constructor
  · rintro ⟨⟨-, set⟩, selected⟩
    exact ⟨BitVec.lt_of_getLsbD set, set, selected⟩
  · rintro ⟨j_lt, set, selected⟩
    exact ⟨⟨by omega, set⟩, selected⟩

/-- Settles O21: the preset nibble and the selected bits. -/
theorem pboxSelectsByMask : Obligations.PboxSelectsByMask :=
  ⟨rfl, fun s idle => ⟨permuteBits Config.params.tables s.dp.sbox, State.command_of_idle idle _,
    permuteBits_extract_high _ _, getLsbD_permuteBits_low _ _⟩⟩

end Sys2Proof.Machine
end

