-- ==== Sys2Proof/Proofs/AssemblerFamily.lean ====
section
/-! The obligations on the plaintext assembler of spec/43_assembler.md: FINISH (R65, R66) and CHECK (R67, R68). -/

namespace Sys2Proof.Machine

open Sys2Proof

/-- A bit range of the shifted R is the range of R four places below (R65). -/
theorem extractLsb'_shiftedR (r : BitVec 24) (start len : Nat) (inside : start + len ≤ 24) :
    (shiftedR r).extractLsb' (start + 4) len = r.extractLsb' start len := by
  apply BitVec.eq_of_getLsbD_eq
  intro i i_lt
  have above_the_zeros : start + 4 + i < 32 ∧ 4 ≤ start + 4 + i ∧ start + 4 + i - 4 = start + i := by omega
  simp [shiftedR, i_lt, above_the_zeros]

/-- The bits of L and R that FINISH packs: byte 4 comes from R alone, and neither L[23:20] nor R[23:20] is used (R65). -/
theorem finishHalves_eq (l r : BitVec 24) :
    finishHalves l r = r.extractLsb' 12 8 ++
      (r.extractLsb' 4 8 ++ r.extractLsb' 0 4 ++ l.extractLsb' 16 4 ++ l.extractLsb' 8 8 ++ l.extractLsb' 0 8) := by
  rw [finishHalves, extractLsb'_shiftedR r 12 8 (by decide), extractLsb'_shiftedR r 4 8 (by decide),
    extractLsb'_shiftedR r 0 4 (by decide)]
  simp only [BitVec.append_assoc, BitVec.cast_eq]

/-- The register writes of FINISH by the bits of L and R (R66). -/
theorem Datapath.finish_eq (d : Datapath) :
    d.finish = { d with
      pt0 := d.r.extractLsb' 4 8 ++ d.r.extractLsb' 0 4 ++ d.l.extractLsb' 16 4 ++ d.l.extractLsb' 8 8 ++
        d.l.extractLsb' 0 8
      pt1 := d.r.extractLsb' 12 8 } := by
  rw [Datapath.finish, finishHalves_eq, BitVec.extractLsb'_append_eq_left, BitVec.extractLsb'_append_eq_right]

/-- Settles O24: FINISH's word, and its rule by bits of L and R. -/
theorem finishPacksTheHalves : Obligations.FinishPacksTheHalves := by
  refine ⟨rfl, fun s idle => ?_⟩
  rw [← s.dp.finish_eq]
  exact s.command_of_idle idle Datapath.finish

/-- The checksum of the plaintext lies in PT0 (R67). -/
theorem checksum_plaintext (d : Datapath) : checksum d.plaintext = d.pt0.extractLsb' 4 16 := by
  rw [checksum, BitVec.extractLsb'_append_extractLsb'_eq_extractLsb' (by rfl),
    BitVec.extractLsb'_append_extractLsb'_eq_extractLsb' (by rfl), Datapath.plaintext,
    BitVec.extractLsb'_append_eq_of_add_le (by decide)]

/-- The payload of the plaintext: what PT0 holds outside the checksum, around PT1, without PT0[3:2] (R67). -/
theorem payload_plaintext (d : Datapath) :
    payload d.plaintext = d.pt0.extractLsb' 0 2 ++ d.pt1 ++ d.pt0.extractLsb' 20 12 := by
  have upper_pt0 : d.plaintext.extractLsb' 24 8 ++ d.plaintext.extractLsb' 20 4 = d.pt0.extractLsb' 20 12 := by
    rw [BitVec.extractLsb'_append_extractLsb'_eq_extractLsb' (by rfl), Datapath.plaintext,
      BitVec.extractLsb'_append_eq_of_add_le (by decide)]
  have pt1 : d.plaintext.extractLsb' 32 8 = d.pt1 := BitVec.extractLsb'_append_eq_left
  have low_pt0 : d.plaintext.extractLsb' 0 2 = d.pt0.extractLsb' 0 2 :=
    BitVec.extractLsb'_append_eq_of_add_le (by decide)
  calc payload d.plaintext
      = (d.plaintext.extractLsb' 0 4 ++ (d.plaintext.extractLsb' 32 8 ++
          (d.plaintext.extractLsb' 24 8 ++ d.plaintext.extractLsb' 20 4))).setWidth 22 := by
        simp only [payload, BitVec.append_assoc, BitVec.cast_eq]
    _ = d.pt0.extractLsb' 0 2 ++ (d.pt1 ++ d.pt0.extractLsb' 20 12) := by
        rw [upper_pt0, pt1, BitVec.setWidth_append, dif_neg (by decide), BitVec.setWidth_extractLsb'_of_le (by decide),
          low_pt0, BitVec.cast_eq]
    _ = d.pt0.extractLsb' 0 2 ++ d.pt1 ++ d.pt0.extractLsb' 20 12 := by
        simp only [BitVec.append_assoc, BitVec.cast_eq]

/-- The value of CHECK for any parameters, the payload joined below two zeros (R67). -/
theorem checkPlaintext_eq (p : Params) (pt : BitVec 40) :
    checkPlaintext p pt =
      if checksum pt = p.checkConst then (0#2 ++ payload pt) ||| p.successFlag else p.failSentinel := by
  rw [checkPlaintext, ite_not, BitVec.setWidth_eq_append (by decide), BitVec.cast_eq]

/-- The success flag of this hardware is bit 22, just above the payload, with bit 23 clear (R67). -/
theorem checkPlaintext_params (pt : BitVec 40) :
    checkPlaintext Config.params pt = if checksum pt = 0x2501#16 then 1#2 ++ payload pt else 0x200001#24 := by
  have flagged : (0#2 ++ payload pt) ||| Config.params.successFlag = 1#2 ++ payload pt := by
    have flag : Config.params.successFlag = 1#2 ++ 0#22 := rfl
    rw [flag, BitVec.or_append, BitVec.zero_or, BitVec.or_zero]
  rw [checkPlaintext_eq, flagged]
  rfl

theorem checkPlaintext_of_checksum_ne {pt : BitVec 40} (h : checksum pt ≠ 0x2501#16) :
    checkPlaintext Config.params pt = 0x200001#24 := by
  rw [checkPlaintext_params, if_neg h]

theorem checkPlaintext_of_checksum_eq {pt : BitVec 40} (h : checksum pt = 0x2501#16) :
    checkPlaintext Config.params pt = 1#2 ++ payload pt := by
  rw [checkPlaintext_params, if_pos h]

/-- Bit 22 tells every success value from the sentinel, so VALID is the outcome of the last CHECK (R67, R68). -/
theorem getLsbD_checkPlaintext_valid (pt : BitVec 40) :
    (checkPlaintext Config.params pt).getLsbD 22 = true ↔ checksum pt = 0x2501#16 := by
  by_cases h : checksum pt = 0x2501#16
  · rw [checkPlaintext_of_checksum_eq h, BitVec.getLsbD_append]
    simp [h]
  · rw [checkPlaintext_of_checksum_ne h]
    simp [h]

/-- Settles O25: CHECK's rule, the checksum and the payload by bits of PT0 and PT1. -/
theorem checkValidatesTheChecksum : Obligations.CheckValidatesTheChecksum := by
  refine ⟨rfl, fun s idle => ⟨s.complete (s.dp.check Config.params), State.command_of_idle idle _, rfl, ?_⟩⟩
  rw [← checksum_plaintext, State.complete_dp, Datapath.check_result]
  refine ⟨checkPlaintext_of_checksum_ne, fun passed => ?_, getLsbD_checkPlaintext_valid _⟩
  rw [checkPlaintext_of_checksum_eq passed, payload_plaintext]
  simp only [BitVec.append_assoc, BitVec.cast_eq]

end Sys2Proof.Machine
end

