-- ==== Sys2Proof/Proofs/ControlFamily.lean ====
section
/-! The obligations on the housekeeping commands of spec/44_control.md: NOP (R71) and CLEAR (R72). -/

namespace Sys2Proof.Machine

open Sys2Proof

/-- A command is rejected while BUSY = 1, whatever its rule (R31, R77). -/
theorem State.command_of_not_idle {s : State} (running : s.phase ≠ .idle) (rule : Datapath → Datapath) :
    s.command rule = .next (s.withError .busy) := by
  simp [State.command_eq, State.busy, running, State.raiseCmdError_eq_withError]

/-- Acceptance of DECODE clears DONE and starts the engine, which writes the datapath later (R45, R69). -/
theorem State.decodeCommand_of_idle {s : State} (idle : s.phase = .idle) :
    s.decodeCommand = .next { s with done := false, phase := .load } := by
  simp [State.decodeCommand_eq, State.busy, idle]

theorem keepsDatapath_decode : keepsDatapath (encode .decode) := fun _ idle =>
  ⟨_, State.decodeCommand_of_idle idle, rfl⟩

/-- Among the legal words, those without an effect of their own on the datapath: the two that do nothing but set DONE, and
DECODE's (R69, R71). -/
theorem keepsDatapath_iff {w : Word} (legal_w : legal w = true) :
    keepsDatapath w ↔ w = encode .nop ∨ w = encode (.roti 0) ∨ w = encode .decode := by
  constructor
  · exact eq_encode_of_keepsDatapath legal_w
  · rintro (nop | roti | rfl)
    · exact keepsDatapath_of_isNoOp ((isNoOp_iff w).mpr (.inl nop))
    · exact keepsDatapath_of_isNoOp ((isNoOp_iff w).mpr (.inr roti))
    · exact keepsDatapath_decode

/-- Settles O9: NOP's rule is the identity, and every command outside the three words changes `telltale`. -/
theorem nopOnlySetsDone : Obligations.NopOnlySetsDone :=
  ⟨rfl, fun _ => keepsDatapath_iff, fun _ =>
    ⟨fun idle => State.command_of_idle idle fun d => d, fun running => State.command_of_not_idle running fun d => d⟩⟩

/-- Settles O10: CLEAR's rule gives every state the datapath of reset. -/
theorem clearZeroesTheDatapath : Obligations.ClearZeroesTheDatapath :=
  ⟨rfl, fun _ idle => State.command_of_idle idle fun _ => Datapath.zero⟩

end Sys2Proof.Machine
end

