-- ==== Sys2Proof/Proofs/ExceptionsFamily.lean ====
section
/-! The obligations on errors and the interrupt line of spec/60_exceptions.md: the order of the checks of a CMD write
(R77) and `irq` (R80). -/

namespace Sys2Proof.Machine

open Sys2Proof

theorem State.roundCommand_of_not_idle {s : State} (running : s.phase ≠ .idle) (rule : Datapath → Datapath) :
    s.roundCommand rule = .next (s.withError .busy) := by
  simp [State.roundCommand_eq, State.busy, running, State.raiseCmdError_eq_withError]

theorem State.decodeCommand_of_not_idle {s : State} (running : s.phase ≠ .idle) :
    s.decodeCommand = .next (s.withError .busy) := by
  simp [State.decodeCommand_eq, State.busy, running, State.raiseCmdError_eq_withError]

theorem State.illegalCommand_of_not_idle {s : State} (running : s.phase ≠ .idle) :
    s.illegalCommand = .next (s.withError .busy) := by
  simp [State.illegalCommand_eq, State.busy, running, State.raiseCmdError_eq_withError]

/-- The BUSY check of a command comes before the checks and the rule of its own (R77). -/
theorem exec_of_not_idle {s : State} (running : s.phase ≠ .idle) (i : Instr) :
    exec i s = .next (s.withError .busy) := by
  cases i with
  | rot => exact State.roundCommand_of_not_idle running _
  | swap => exact State.roundCommand_of_not_idle running _
  | round => exact State.roundCommand_of_not_idle running _
  | decode => exact State.decodeCommand_of_not_idle running
  | reserved _ => exact State.illegalCommand_of_not_idle running
  | nop => exact State.command_of_not_idle running fun d => d
  | clear => exact State.command_of_not_idle running fun _ => Datapath.zero
  | _ => exact State.command_of_not_idle running _

/-- The BUSY check of a CMD write comes before its word is looked at (R31, R77). -/
theorem busWrite_cmd_of_not_idle {s : State} (running : s.phase ≠ .idle) (w : Word) :
    busWrite 0x0C#8 w s = .next (s.withError .busy) := by
  rw [busWrite_cmd]
  cases decodeWord w with
  | ok i => exact exec_of_not_idle running i
  | error e => exact State.illegalCommand_of_not_idle running

/-- The words of ROT, SWAP and ROUND are the three that the BAD_ROUND check rejects (R45). -/
theorem busWrite_cmd_of_round_zero {s : State} {w : Word} (idle : s.phase = .idle) (zero : s.dp.round = 0)
    (checked : w = encode .rot ∨ w = encode .swap ∨ w = encode .round) :
    busWrite 0x0C#8 w s = .next (s.withError .badRound) := by
  obtain rfl | rfl | rfl := checked <;> exact State.roundCommand_of_round_zero idle zero _

/-- A command that passes its checks and is not DECODE completes in its own cycle: it writes the datapath and sets DONE
(R45). -/
theorem exec_completes {s : State} {i : Instr} (idle : s.phase = .idle) (command : ∀ v, i ≠ .reserved v)
    (not_decode : i ≠ .decode) (passes : s.dp.round ≠ 0 ∨ i ≠ .rot ∧ i ≠ .swap ∧ i ≠ .round) :
    ∃ d, exec i s = .next { s with dp := d, done := true } := by
  cases i with
  | decode => exact absurd rfl not_decode
  | reserved v => exact absurd rfl (command v)
  | rot => exact ⟨_, State.roundCommand_of_idle idle (by simpa using passes) _⟩
  | swap => exact ⟨_, State.roundCommand_of_idle idle (by simpa using passes) _⟩
  | round => exact ⟨_, State.roundCommand_of_idle idle (by simpa using passes) _⟩
  | nop => exact ⟨_, State.command_of_idle idle fun d => d⟩
  | clear => exact ⟨_, State.command_of_idle idle fun _ => Datapath.zero⟩
  | _ => exact ⟨_, State.command_of_idle idle _⟩

/-- The acceptance of a CMD write (R45): DECODE clears DONE and starts the engine, every other command sets DONE. -/
theorem busWrite_cmd_of_accepted {s : State} {w : Word} (idle : s.phase = .idle) (legal_w : legal w = true)
    (passes : s.dp.round ≠ 0 ∨ w ≠ encode .rot ∧ w ≠ encode .swap ∧ w ≠ encode .round) :
    ∃ d, busWrite 0x0C#8 w s = .next { s with
      dp := d
      done := w != encode .decode
      phase := if w = encode .decode then .load else .idle } := by
  by_cases is_decode : w = encode .decode
  · subst is_decode
    exact ⟨s.dp, State.decodeCommand_of_idle idle⟩
  · obtain ⟨i, decoded, command, rfl⟩ := exists_command_of_legal legal_w
    have passes_i : s.dp.round ≠ 0 ∨ i ≠ .rot ∧ i ≠ .swap ∧ i ≠ .round :=
      passes.imp_right fun ⟨rot, swap, round⟩ => ⟨ne_of_apply_ne encode rot, ne_of_apply_ne encode swap,
        ne_of_apply_ne encode round⟩
    obtain ⟨d, completes⟩ := exec_completes idle command (ne_of_apply_ne encode is_decode) passes_i
    refine ⟨d, ?_⟩
    rw [busWrite_cmd, decoded, bne_iff_ne.mpr is_decode, if_neg is_decode, ← idle]
    exact completes

/-- Settles O7: one lemma per check, in the order of R77, and one for acceptance. -/
theorem commandChecksRunInOrder : Obligations.CommandChecksRunInOrder := fun _ w =>
  ⟨fun running => busWrite_cmd_of_not_idle running w, fun idle illegal => busWrite_cmd_of_illegal illegal idle,
    busWrite_cmd_of_round_zero, busWrite_cmd_of_accepted⟩

/-- The interrupt is pending while DONE or ERR is 1, and enabled by IE (R80). -/
theorem State.irq_iff (s : State) : s.irq = true ↔ s.ie = true ∧ (s.done = true ∨ s.err = true) := by
  rw [State.irq, Bool.and_eq_true, Bool.or_eq_true]

/-- A write to STATUS that acknowledges both DONE and ERR leaves nothing pending (R80). -/
theorem State.acknowledge_irq_of_both (s : State) {v : Word} (done : bit v 1 = true) (err : bit v 2 = true) :
    (s.acknowledge v).irq = false := by
  simp [State.irq, done, err]

theorem State.writeCtrl_irq_of_disable (s : State) {v : Word} (disable : bit v 0 = false) :
    (s.writeCtrl v).irq = false := by
  rw [State.irq, State.writeCtrl_ie, disable, Bool.false_and]

/-- Settles O43: the formula, and one lemma for each of the two ways to clear it. -/
theorem interruptLineIsALevel : Obligations.InterruptLineIsALevel :=
  ⟨rfl, fun s => ⟨s.irq_iff,
    fun v done err => ⟨s.acknowledge v, busWrite_offset .status v s, s.acknowledge_irq_of_both done err⟩,
    fun v disable => ⟨s.writeCtrl v, busWrite_offset .ctrl v s, s.writeCtrl_irq_of_disable disable⟩⟩⟩

end Sys2Proof.Machine
end

