-- ==== Sys2Proof/Proofs/ResetFamily.lean ====
section
/-! The obligation on the reset of spec/70_reset_and_hazards.md (rules R85 and R86). -/

namespace Sys2Proof.Machine

open Sys2Proof

/-- The step of this hardware in reset: the pins' access and the engine's step are both left out (R85). -/
theorem step_of_reset {s : State} (h : s.nextPins.rstN = false) : step s = .next s.fetch.resetBlock :=
  stepWith_of_reset Config.params h

theorem State.nextPins_of_pins {s : State} {p : PortPins} {rest : List HostItem} (h : s.host = .pins p :: rest) :
    s.nextPins = p := by
  rw [State.nextPins, h]

@[simp] theorem State.resetBlock_irq (s : State) : s.resetBlock.irq = false := by
  rw [State.irq, State.resetBlock_ie, Bool.false_and]

/-- Settles O48: whatever its pins carry, the cycle only resets the block. -/
theorem resetCycleResetsEverything : Obligations.ResetCycleResetsEverything := by
  intro s p rest next_item in_reset
  have no_access : step s = .next s.fetch.resetBlock :=
    step_of_reset (by rw [State.nextPins_of_pins next_item, in_reset])
  exact ⟨s.fetch.resetBlock, no_access, State.resetBlock_dp _, State.resetBlock_ie _, State.resetBlock_phase _,
    State.resetBlock_done _, State.resetBlock_err _, State.resetBlock_errcode _, State.resetBlock_rdata _,
    State.resetBlock_irq _⟩

end Sys2Proof.Machine
end

