-- ==== Sys2Proof/Proofs/EncodingRoundTrip.lean ====
section
/-! The obligations on the decoder and the encoder as inverses, and on the rows of the opcode table
(spec/30_encoding.md rules R40 to R44). -/

namespace Sys2Proof

/-- The reserved row is decided by OPC alone (R44). -/
theorem decodeWord_of_reservedOpcode {w : Word} (h : opcField w = 0xF#4) : decodeWord w = .ok (.reserved w) := by
  rw [decodeWord, if_pos h]

/-- Settles O1: ROTI's operand has four values, the reserved row's word is told by its opcode, and every other command
is one word. -/
theorem decodeOfEncodeIsTheCommand : Obligations.DecodeOfEncodeIsTheCommand := by
  intro i wellFormed
  cases i with
  | roti cnt =>
    revert cnt
    decide
  | reserved w => exact decodeWord_of_reservedOpcode (beq_iff_eq.mp wellFormed)
  | _ => rfl

/-- A word of another row that decodes is legal (R43, R44). -/
theorem legal_of_decodeWord {w : Word} {i : Instr} (opc : opcField w ≠ 0xF#4) (decoded : decodeWord w = .ok i) :
    legal w = true := by
  rw [decodeWord, if_neg opc] at decoded
  rw [legal_iff_fields]
  split_ifs at decoded with z cnt
  tauto

theorem wellFormed_of_not_reserved {i : Instr} (command : ∀ v, i ≠ .reserved v) : i.wellFormed = true := by
  cases i with
  | reserved v => exact absurd rfl (command v)
  | _ => rfl

/-- Settles O2: a word of the reserved row is kept whole, and each of the eighteen others is its command's word. -/
theorem encodeOfDecodeIsTheWord : Obligations.EncodeOfDecodeIsTheWord := by
  intro w i decoded
  by_cases opc : opcField w = 0xF#4
  · obtain rfl : .reserved w = i := Except.ok.inj ((decodeWord_of_reservedOpcode opc).symm.trans decoded)
    exact ⟨beq_iff_eq.mpr opc, rfl⟩
  · obtain ⟨j, decoded_j, command, encoded⟩ := exists_command_of_legal (legal_of_decodeWord opc decoded)
    obtain rfl : j = i := Except.ok.inj (decoded_j.symm.trans decoded)
    exact ⟨wellFormed_of_not_reserved command, encoded⟩

theorem row_matches_encode (i : Instr) : Laws.EncodingFitsTable.Statement i := by
  cases i with
  | roti cnt => exact Laws.EncodingFitsTable.roti cnt
  | reserved w => exact Laws.EncodingFitsTable.reserved w
  | _ => exact fun _ => rfl

/-- A row whose mask has every bit holds one word. -/
theorem eq_of_full_mask {w pattern : Word} (h : (OpcodeRow.mk pattern 0xFFFFFFFF#32).matches w = true) :
    w = pattern := by
  have masked : w &&& 0xFFFFFFFF#32 = pattern := beq_iff_eq.mp h
  rwa [show (0xFFFFFFFF#32 : Word) = BitVec.allOnes 32 from rfl, BitVec.and_allOnes] at masked

/-- A field that lies inside a row's mask is the pattern's. -/
theorem field_eq_of_matches {row : OpcodeRow} {w : Word} (h : row.matches w = true) {start len : Nat}
    (inside : row.mask.extractLsb' start len = BitVec.allOnes len) :
    w.extractLsb' start len = row.pattern.extractLsb' start len := by
  have masked : w &&& row.mask = row.pattern := beq_iff_eq.mp h
  rw [← masked, BitVec.extractLsb'_and, inside, BitVec.and_allOnes]

/-- Any word of a row decodes to a command of the row. -/
theorem decodes_of_row_matches {w : Word} {j : Instr} (h : j.row.matches w = true) :
    ∃ i, decodeWord w = .ok i ∧ i.row = j.row := by
  cases j with
  | roti cnt =>
    have h : (OpcodeRow.mk 0x00000003#32 0xFFFFFFCF#32).matches w = true := h
    have opc : opcField w = 3#4 := field_eq_of_matches h (start := 0) (len := 4) (by decide)
    have z : zField w = 0#26 := field_eq_of_matches h (start := 6) (len := 26) (by decide)
    exact ⟨.roti (cntField w), by simp [decodeWord, opc, z, commandOf], rfl⟩
  | reserved v => exact ⟨.reserved w, decodeWord_of_reservedOpcode (field_eq_of_matches h rfl), rfl⟩
  | _ =>
    obtain rfl := eq_of_full_mask h
    exact ⟨_, rfl, rfl⟩

/-- Settles O3: the rows hold the words of their commands and no others. -/
theorem rowsOfTheTableAreWhatDecodes : Obligations.RowsOfTheTableAreWhatDecodes := by
  intro w j
  constructor
  · exact decodes_of_row_matches
  · rintro ⟨i, decoded, same_row⟩
    obtain ⟨wellFormed, rfl⟩ := encodeOfDecodeIsTheWord w i decoded
    exact same_row ▸ row_matches_encode i wellFormed

/-- Settles O5: the decoder evaluated on each word. -/
theorem writtenOutWordsDecode : Obligations.WrittenOutWordsDecode := by
  unfold Obligations.WrittenOutWordsDecode
  decide

end Sys2Proof
end

