-- ==== Sys2Proof/Proofs/CommandRules.lean ====
section
/-! The datapath rule of each command as one function, the registers a rule leaves alone, and everything a command can
do (spec/30_encoding.md rule R45). -/

namespace Sys2Proof.Machine

open Sys2Proof

/-- The register writes of a command once it is accepted (R48 to R72). -/
def commandRule (p : Params) : Instr → Datapath → Datapath
  | .load => Datapath.load
  | .rot => Datapath.rot p
  | .roti cnt => Datapath.rotateBy p cnt.toNat
  | .expand => Datapath.expand p
  | .compress => Datapath.compress p
  | .mix => Datapath.mixKey
  | .sbox => Datapath.substitute p
  | .pbox => Datapath.permute p
  | .swap => Datapath.swap
  | .round => Datapath.oneRound p
  | .finish => Datapath.finish
  | .check => Datapath.check p
  | .clear => fun _ => Datapath.zero
  | .nop | .decode | .reserved _ => fun d => d

/-- The commands that the BAD_ROUND check is for (R45). -/
def needsRound (i : Instr) : Prop := i = .rot ∨ i = .swap ∨ i = .round

/-- A command that passes its checks and is not DECODE performs its rule and sets DONE (R45). -/
theorem execWith_of_passes {p : Params} {i : Instr} {s : State} (idle : s.phase = .idle)
    (passes : needsRound i → s.dp.round ≠ 0) (not_decode : i ≠ .decode) (command : ∀ v, i ≠ .reserved v) :
    execWith p i s = .next { s with dp := commandRule p i s.dp, done := true } := by
  cases i with
  | decode => exact absurd rfl not_decode
  | reserved v => exact absurd rfl (command v)
  | rot => exact State.roundCommand_of_idle idle (passes (.inl rfl)) _
  | swap => exact State.roundCommand_of_idle idle (passes (.inr (.inl rfl))) _
  | round => exact State.roundCommand_of_idle idle (passes (.inr (.inr rfl))) _
  | nop => exact State.command_of_idle idle fun d => d
  | clear => exact State.command_of_idle idle fun _ => Datapath.zero
  | _ => exact State.command_of_idle idle _

theorem execWith_of_round_zero {p : Params} {i : Instr} {s : State} (idle : s.phase = .idle) (needs : needsRound i)
    (zero : s.dp.round = 0) : execWith p i s = .next (s.withError .badRound) := by
  obtain rfl | rfl | rfl := needs <;> exact State.roundCommand_of_round_zero idle zero _

/-- With any parameters a command is rejected while BUSY = 1 (R31). -/
theorem execWith_of_not_idle (p : Params) (i : Instr) {s : State} (running : s.phase ≠ .idle) :
    execWith p i s = .next (s.withError .busy) := by
  cases i with
  | rot | swap | round => exact State.roundCommand_of_not_idle running _
  | decode => exact State.decodeCommand_of_not_idle running
  | reserved _ => exact State.illegalCommand_of_not_idle running
  | nop => exact State.command_of_not_idle running fun d => d
  | clear => exact State.command_of_not_idle running fun _ => Datapath.zero
  | _ => exact State.command_of_not_idle running _

/-- Everything a command can do. -/
inductive CommandEffect (p : Params) (i : Instr) (s : State) : State → Prop where
  /-- It raises an error. -/
  | rejected (code : ErrCode) (coded : code ≠ .none) : CommandEffect p i s (s.raiseCmdError code)
  /-- It is DECODE and starts the engine. -/
  | started (idle : s.phase = .idle) (decode : i = .decode) :
      CommandEffect p i s { s with done := false, phase := .load }
  /-- It performs its rule. -/
  | completed (idle : s.phase = .idle) (passes : needsRound i → s.dp.round ≠ 0) :
      CommandEffect p i s { s with dp := commandRule p i s.dp, done := true }

theorem CommandEffect.of_withError {p : Params} {i : Instr} {s : State} (code : ErrCode) (coded : code ≠ .none) :
    CommandEffect p i s (s.withError code) :=
  s.raiseCmdError_eq_withError code ▸ .rejected code coded

theorem commandEffect_of_execWith {p : Params} {i : Instr} {s t : State} (h : execWith p i s = .next t) :
    CommandEffect p i s t := by
  have effect_of {u : State} (answer : execWith p i s = .next u) (effect : CommandEffect p i s u) :
      CommandEffect p i s t := by
    cases answer.symm.trans h
    exact effect
  by_cases idle : s.phase = .idle
  case neg => exact effect_of (execWith_of_not_idle p i idle) (.of_withError .busy nofun)
  by_cases is_decode : i = .decode
  · subst is_decode
    exact effect_of (State.decodeCommand_of_idle idle) (.started idle rfl)
  by_cases command : ∀ v, i ≠ .reserved v
  case neg =>
    obtain ⟨v, rfl⟩ : ∃ v, i = .reserved v := by simpa using command
    exact effect_of (State.illegalCommand_of_idle idle) (.of_withError .illegalCmd nofun)
  by_cases passes : needsRound i → s.dp.round ≠ 0
  · exact effect_of (execWith_of_passes idle passes is_decode command) (.completed idle passes)
  · obtain ⟨needs, zero⟩ : needsRound i ∧ s.dp.round = 0 := by simpa using passes
    exact effect_of (execWith_of_round_zero idle needs zero) (.of_withError .badRound nofun)

/-! What the rules leave alone (R17, R18, R22). -/

/-- CLEAR is the one command that writes the input buffer (R17). -/
theorem commandRule_inputs (p : Params) (d : Datapath) {i : Instr} (not_clear : i ≠ .clear) :
    (commandRule p i d).in0 = d.in0 ∧ (commandRule p i d).in1 = d.in1 ∧ (commandRule p i d).in2 = d.in2 := by
  cases i with
  | clear => exact absurd rfl not_clear
  | _ => simp [commandRule]

/-- CHECK and CLEAR are the commands that write RESULT (R18). -/
theorem commandRule_result (p : Params) (d : Datapath) {i : Instr} (not_check : i ≠ .check) (not_clear : i ≠ .clear) :
    (commandRule p i d).result = d.result := by
  cases i with
  | check => exact absurd rfl not_check
  | clear => exact absurd rfl not_clear
  | _ => simp [commandRule]

/-- No rule takes ROUND out of 0 to 16: LOAD sets 16, CLEAR 0, and SWAP and ROUND count down from above 0 (R22). -/
theorem commandRule_round_le (p : Params) {d : Datapath} {i : Instr} (round_le : d.round.toNat ≤ 16)
    (passes : needsRound i → d.round ≠ 0) : (commandRule p i d).round.toNat ≤ 16 := by
  cases i with
  | swap | round =>
    have counted := toNat_sub_one_of_ne_zero (passes (by simp [needsRound]))
    simp only [commandRule, Datapath.swap_round, Datapath.oneRound_round]
    omega
  | load => exact le_refl 16
  | clear => exact Nat.zero_le 16
  | _ => simpa [commandRule] using round_le

end Sys2Proof.Machine
end

