-- ==== Sys2Proof/Proofs/EngineRun.lean ====
section
/-! The engine's step as the command of its phase, the nineteen steps of a DECODE by number, and the obligations on the
engine of spec/44_control.md (R69, R70). -/

namespace Sys2Proof.Machine

open Sys2Proof

/-- The command whose rule the engine performs in a phase (R70); in IDLE it performs none. -/
def phaseCommand : Phase → Instr
  | .idle => .nop
  | .load => .load
  | .rounds => .round
  | .finish => .finish
  | .check => .check

/-- The phase after an engine step that leaves the registers `d` (R70). -/
def phaseAfter (d : Datapath) : Phase → Phase
  | .idle => .idle
  | .load => .rounds
  | .rounds => phaseAfterRound d
  | .finish => .check
  | .check => .idle

/-- The registers after the engine's step in the phase `phase`. -/
def phaseRule (p : Params) (phase : Phase) (d : Datapath) : Datapath := commandRule p (phaseCommand phase) d

/-- The state after an engine step. -/
def State.stepped (p : Params) (s : State) : State :=
  { s with
    dp := phaseRule p s.phase s.dp
    phase := phaseAfter (phaseRule p s.phase s.dp) s.phase
    done := s.phase == .check || s.done }

theorem eq_stepped_of_engineStepWith {p : Params} {s t : State} (h : engineStepWith p s = .next t) :
    t = s.stepped p := by
  obtain ⟨phase, rfl⟩ | ⟨phase, rfl⟩ | ⟨phase, -, rfl⟩ | ⟨phase, rfl⟩ | ⟨phase, rfl⟩ := engineStepWith_cases h
  case inl =>
    cases t
    cases phase
    rfl
  all_goals
    rw [State.stepped, phase]
    rfl

/-- Unless it counts a round at ROUND = 0, the engine takes its step (R70). -/
theorem engineStepWith_eq {p : Params} {s : State} (counting : s.phase = .rounds → s.dp.round ≠ 0) :
    engineStepWith p s = .next (s.stepped p) := by
  obtain ⟨t, h⟩ := (engineStepWith_stops_iff p s).mpr fun ⟨phase, zero⟩ => counting phase zero
  rw [h, eq_stepped_of_engineStepWith h]

/-- The one stop (Log 9). -/
theorem engineStepWith_of_round_zero {p : Params} {s : State} (phase : s.phase = .rounds) (zero : s.dp.round = 0) :
    engineStepWith p s = .fault .roundsAtZero := by
  rw [engineStepWith, phase, if_pos zero]

/-- Only a round of the engine is a command with the BAD_ROUND check (R45). -/
theorem eq_rounds_of_needsRound {phase : Phase} (needs : needsRound (phaseCommand phase)) : phase = .rounds := by
  cases phase <;> simp_all [needsRound, phaseCommand]

/-- The engine does not clear (R70, R72). -/
theorem phaseCommand_ne_clear (phase : Phase) : phaseCommand phase ≠ .clear := by
  cases phase <;> exact nofun

/-- The command of a phase, accepted outside a DECODE, performs the rule of the engine's step (R70). -/
theorem exec_phaseCommand {s : State} (idle : s.phase = .idle) (phase : Phase)
    (counting : phase = .rounds → s.dp.round ≠ 0) :
    exec (phaseCommand phase) s = .next (s.complete (phaseRule Config.params phase s.dp)) := by
  rw [← execWith_params]
  refine execWith_of_passes idle (fun needs => counting (eq_rounds_of_needsRound needs)) ?_ ?_
  all_goals cases phase <;> exact nofun

/-- Settles O28: in each phase the engine's step and the phase's command perform the same rule. -/
theorem engineStepsPerformTheCommands : Obligations.EngineStepsPerformTheCommands := by
  have same_rule (s : State) {phase : Phase} (in_phase : s.phase = phase)
      (counting : phase = .rounds → s.dp.round ≠ 0) : ∃ t,
        exec (phaseCommand phase) { s with phase := .idle } = .next t ∧ engineStep s = .next { s with
          dp := t.dp, phase := phaseAfter t.dp phase, done := phase == .check || s.done } := by
    subst in_phase
    exact ⟨_, exec_phaseCommand rfl s.phase counting, engineStepWith_eq counting⟩
  exact fun s => ⟨fun phase => same_rule s phase nofun, fun phase nonzero => same_rule s phase fun _ => nonzero,
    fun phase => same_rule s phase nofun, fun phase => same_rule s phase nofun⟩

/-! ### The nineteen steps of a DECODE -/

/-- PHASE after n engine steps of a DECODE (R70). -/
def decodePhase (n : Nat) : Phase :=
  if n = 0 then .load else if n ≤ 16 then .rounds else if n = 17 then .finish else if n = 18 then .check else .idle

/-- The registers after n engine steps of a DECODE that finds the registers `d` (R70). -/
def decodeRegs (p : Params) (d : Datapath) : Nat → Datapath
  | 0 => d
  | n + 1 => phaseRule p (decodePhase n) (decodeRegs p d n)

theorem decodePhase_eq_idle_iff (n : Nat) : decodePhase n = .idle ↔ 19 ≤ n := by
  unfold decodePhase
  split_ifs <;> simp <;> omega

theorem decodePhase_eq_rounds_iff (n : Nat) : decodePhase n = .rounds ↔ 0 < n ∧ n ≤ 16 := by
  unfold decodePhase
  split_ifs <;> simp <;> omega

theorem decodePhase_eq_check_iff (n : Nat) : decodePhase n = .check ↔ n = 18 := by
  unfold decodePhase
  split_ifs <;> simp <;> omega

theorem decodeRegs_round_step (p : Params) (d : Datapath) {n : Nat} (rounds : 0 < n ∧ n ≤ 16) :
    decodeRegs p d (n + 1) = (decodeRegs p d n).oneRound p := by
  rw [decodeRegs, (decodePhase_eq_rounds_iff n).mpr rounds]
  rfl

/-- No step after LOAD but a round writes ROUND (R66, R68). -/
theorem decodeRegs_keeps_round (p : Params) (d : Datapath) {n : Nat} (past : 16 < n) :
    (decodeRegs p d (n + 1)).round = (decodeRegs p d n).round := by
  have later : decodePhase n = .finish ∨ decodePhase n = .check ∨ decodePhase n = .idle := by
    rw [decodePhase, if_neg (by omega), if_neg (by omega)]
    split_ifs <;> simp
  rw [decodeRegs]
  obtain phase | phase | phase := later <;> rw [phase] <;> rfl

/-- After LOAD the engine counts ROUND down from 16 to 0, one a step, and there it stays (R52, R70). -/
theorem decodeRegs_round (p : Params) (d : Datapath) (n : Nat) :
    (decodeRegs p d (n + 1)).round.toNat = 16 - n := by
  induction n with
  | zero => rfl
  | succ n ih =>
    by_cases rounds : n + 1 ≤ 16
    · have nonzero : (decodeRegs p d (n + 1)).round ≠ 0 := fun zero => by
        rw [zero] at ih
        change 0 = 16 - n at ih
        omega
      rw [decodeRegs_round_step p d ⟨by omega, rounds⟩, Datapath.oneRound_round, toNat_sub_one_of_ne_zero nonzero, ih,
        Nat.sub_sub]
    · rw [decodeRegs_keeps_round p d (by omega), ih]
      omega

theorem decodeRegs_round_eq_zero_iff (p : Params) (d : Datapath) (n : Nat) :
    (decodeRegs p d (n + 1)).round = 0 ↔ 16 ≤ n := by
  rw [← BitVec.toNat_inj, decodeRegs_round]
  change 16 - n = 0 ↔ 16 ≤ n
  omega

/-- ROUND is at least 1 in every round of the engine (R70). -/
theorem decodeRegs_round_ne_zero (p : Params) (d : Datapath) {n : Nat} (rounds : decodePhase n = .rounds) :
    (decodeRegs p d n).round ≠ 0 := by
  obtain ⟨pos, le⟩ := (decodePhase_eq_rounds_iff n).mp rounds
  obtain ⟨k, rfl⟩ := Nat.exists_eq_add_of_le' pos
  rw [Ne, decodeRegs_round_eq_zero_iff]
  omega

/-- The engine goes from the n-th phase of a DECODE to the next (R70). -/
theorem phaseAfter_decodePhase (p : Params) (d : Datapath) {n : Nat} (running : n < 19) :
    phaseAfter (decodeRegs p d (n + 1)) (decodePhase n) = decodePhase (n + 1) := by
  by_cases rounds : 0 < n ∧ n ≤ 16
  · rw [(decodePhase_eq_rounds_iff n).mpr rounds, phaseAfter, phaseAfterRound]
    simp only [decodeRegs_round_eq_zero_iff]
    by_cases last : n = 16
    · rw [last]
      rfl
    · rw [if_neg (by omega), (decodePhase_eq_rounds_iff (n + 1)).mpr (by omega)]
  · obtain rfl | rfl | rfl : n = 0 ∨ n = 17 ∨ n = 18 := by omega
    all_goals rfl

/-- `s` with the registers and PHASE that n engine steps of a DECODE leave; the last one sets DONE. -/
def State.afterSteps (p : Params) (d : Datapath) (n : Nat) (s : State) : State :=
  { s with dp := decodeRegs p d n, phase := decodePhase n, done := n == 19 || s.done }

/-- A state of a running DECODE by the number of steps taken. -/
theorem State.eq_afterSteps {p : Params} {d : Datapath} {n : Nat} {s : State} (running : n < 19)
    (regs : s.dp = decodeRegs p d n) (phase : s.phase = decodePhase n) : s = s.afterSteps p d n := by
  have not_last : (n == 19) = false := beq_eq_false_iff_ne.mpr (by omega)
  rw [State.afterSteps, ← regs, ← phase, not_last]
  rfl

theorem State.eq_afterSteps_zero {s : State} (phase : s.phase = .load) (p : Params) : s = s.afterSteps p s.dp 0 :=
  State.eq_afterSteps (by decide) rfl phase

theorem engineStepWith_afterSteps (p : Params) (d : Datapath) {n : Nat} (running : n < 19) (s : State) :
    engineStepWith p (s.afterSteps p d n) = .next (s.afterSteps p d (n + 1)) := by
  have last : (decodePhase n == .check) = (n + 1 == 19) := by
    rw [Bool.eq_iff_iff, beq_iff_eq, beq_iff_eq, decodePhase_eq_check_iff]
    omega
  have not_done : (n == 19) = false := beq_eq_false_iff_ne.mpr (by omega)
  rw [engineStepWith_eq (decodeRegs_round_ne_zero p d), State.stepped, State.afterSteps, State.afterSteps, ← last,
    not_done, ← phaseAfter_decodePhase p d running]
  rfl

/-- n engine steps of a DECODE from any of its states (R70). -/
theorem engineStepsWith_afterSteps (p : Params) (d : Datapath) {k n : Nat} (within : n + k ≤ 19) (s : State) :
    engineStepsWith p k (s.afterSteps p d n) = .next (s.afterSteps p d (n + k)) := by
  induction k generalizing n with
  | zero => rfl
  | succ k ih =>
    rw [engineStepsWith_succ (engineStepWith_afterSteps p d (by omega) s), ih (by omega), Nat.add_right_comm,
      Nat.add_assoc]

/-- All of a DECODE (R69). -/
theorem engineSteps_nineteen {s : State} (phase : s.phase = .load) (p : Params) :
    engineStepsWith p 19 s = .next { s with dp := decodeRegs p s.dp 19, phase := .idle, done := true } := by
  conv_lhs => rw [State.eq_afterSteps_zero phase p]
  exact engineStepsWith_afterSteps p s.dp (by decide) s

/-! ### The same registers from a sequence of commands -/

/-- The command of the engine's n-th step. -/
def stepCommand (n : Nat) : Instr := phaseCommand (decodePhase n)

theorem decodeCommands_eq : decodeCommands = (List.range' 0 19).map stepCommand := rfl

/-- k commands from the n-th on, the one before them accepted. -/
theorem execAll_stepCommands {s : State} (idle : s.phase = .idle) (d : Datapath) (n k : Nat) :
    execAll ((List.range' n k).map stepCommand) (s.complete (decodeRegs Config.params d n)) =
      .next (s.complete (decodeRegs Config.params d (n + k))) := by
  induction k generalizing n with
  | zero => rfl
  | succ k ih =>
    have next : exec (stepCommand n) (s.complete (decodeRegs Config.params d n)) =
        .next (s.complete (decodeRegs Config.params d (n + 1))) :=
      exec_phaseCommand (s := s.complete _) idle (decodePhase n) (decodeRegs_round_ne_zero Config.params d)
    rw [List.range'_succ, List.map_cons, execAll_cons_of_next next, ih, Nat.add_right_comm, Nat.add_assoc]

theorem execAll_decodeCommands {s : State} (idle : s.phase = .idle) :
    execAll decodeCommands s = .next (s.complete (decodeRegs Config.params s.dp 19)) := by
  have load : exec (stepCommand 0) s = .next (s.complete (decodeRegs Config.params s.dp 1)) :=
    exec_phaseCommand idle .load nofun
  rw [decodeCommands_eq, List.range'_succ, List.map_cons, execAll_cons_of_next load]
  exact execAll_stepCommands idle s.dp 1 18

/-- Settles O29: the engine and the commands leave the registers of the same nineteen rules. -/
theorem decodeEqualsItsCommandSequence : Obligations.DecodeEqualsItsCommandSequence := by
  intro s idle
  refine ⟨_, _, State.decodeCommand_of_idle idle, engineSteps_nineteen rfl Config.params, ?_⟩
  rw [execAll_decodeCommands idle, ← idle]
  rfl

end Sys2Proof.Machine
end

