-- ==== Sys2Proof/Proofs/DecodeOutcome.lean ====
section
/-! What a DECODE leaves in the registers: the time register turned full circle (spec/41_round_engine.md rules R51 and
R52), the input buffer, RESULT by the halves (43_assembler.md rule R68), and nothing of the registers before it
(44_control.md rule R69). -/

namespace Sys2Proof.Machine

open Sys2Proof

/-! ### The time register -/

theorem rotateRight_self {w : Nat} (x : BitVec w) : x.rotateRight w = x := by
  rw [← BitVec.rotateRight_mod_eq_rotateRight, Nat.mod_self, rotateRight_zero]

/-- Twenty RotSteps turn both 20-bit rings full circle (R51). -/
theorem rotSteps_twenty (t : BitVec 32 × BitVec 8) : rotSteps .copy 20 t = t := by
  obtain ⟨turned_a, turned_b⟩ := rings_rotSteps 20 t
  rw [rotateRight_self] at turned_a turned_b
  apply Prod.ext
  · rw [← loOfRings_rings t.1 t.2, ← turned_a, ← turned_b, loOfRings_rings]
  · rw [← hiOfRings_ringB t.1 t.2, ← turned_b, hiOfRings_ringB]

/-- Settles O13: the rings have twenty bits each, and four of the sixteen rounds turn them twice. -/
theorem twentyRotStepsRestoreTheTimeRegister : Obligations.TwentyRotStepsRestoreTheTimeRegister :=
  ⟨rotSteps_twenty, by decide⟩

theorem rotSteps_add (mode : RotBit20Mode) (m n : Nat) (t : BitVec 32 × BitVec 8) :
    rotSteps mode n (rotSteps mode m t) = rotSteps mode (m + n) t := by
  induction m generalizing t with
  | zero => rw [Nat.zero_add, rotSteps]
  | succ m ih => rw [Nat.succ_add, rotSteps, rotSteps, ih]

/-- The time register of R21, as RotStep takes it. -/
def Datapath.time (d : Datapath) : BitVec 32 × BitVec 8 := (d.tlo, d.thi)

theorem Datapath.oneRound_time (p : Params) (d : Datapath) :
    (d.oneRound p).time = rotSteps p.rotBit20Mode (rotAmount p d.round) d.time := by
  rw [Datapath.time, Datapath.oneRound_tlo, Datapath.oneRound_thi]
  rfl

/-- The RotSteps of the first n rounds of a DECODE, which are rounds 16, 15 and so on (R52). -/
def turnsOfRounds (p : Params) (n : Nat) : Nat :=
  ((List.range n).map fun k => rotAmount p (BitVec.ofNat 5 (16 - k))).sum

theorem turnsOfRounds_succ (p : Params) (n : Nat) :
    turnsOfRounds p (n + 1) = turnsOfRounds p n + rotAmount p (BitVec.ofNat 5 (16 - n)) := by
  simp [turnsOfRounds, List.range_succ]

theorem decodeRegs_time (p : Params) (d : Datapath) {n : Nat} (rounds : n ≤ 16) :
    (decodeRegs p d (n + 1)).time = rotSteps p.rotBit20Mode (turnsOfRounds p n) d.load.time := by
  induction n with
  | zero => rfl
  | succ n ih =>
    have round : (decodeRegs p d (n + 1)).round = BitVec.ofNat 5 (16 - n) := by
      rw [← decodeRegs_round p d n, BitVec.ofNat_toNat, BitVec.setWidth_eq]
    rw [decodeRegs_round_step p d ⟨by omega, rounds⟩, Datapath.oneRound_time, ih (by omega), rotSteps_add, round,
      turnsOfRounds_succ]

/-- FINISH and CHECK come after the last round. -/
theorem decodeRegs_nineteen (p : Params) (d : Datapath) :
    decodeRegs p d 19 = ((decodeRegs p d 17).finish).check p := rfl

theorem Datapath.terminal_time (p : Params) (d : Datapath) : (d.finish.check p).time = d.time := rfl

theorem turnsOfRounds_sixteen : turnsOfRounds Config.params 16 = 20 := by decide

/-- A DECODE of this hardware leaves the time register as LOAD set it (R52). -/
theorem decodeRegs_nineteen_time (d : Datapath) : (decodeRegs Config.params d 19).time = d.load.time :=
  calc (decodeRegs Config.params d 19).time
      = (decodeRegs Config.params d (16 + 1)).time := by rw [decodeRegs_nineteen, Datapath.terminal_time]
    _ = rotSteps .copy 20 d.load.time := by rw [decodeRegs_time _ _ (le_refl 16), turnsOfRounds_sixteen]; rfl
    _ = d.load.time := rotSteps_twenty d.load.time

/-! ### The input buffer and RESULT -/

/-- No step of the engine writes the input buffer (R17). -/
theorem decodeRegs_inputs (p : Params) (d : Datapath) (n : Nat) :
    (decodeRegs p d n).in0 = d.in0 ∧ (decodeRegs p d n).in1 = d.in1 ∧ (decodeRegs p d n).in2 = d.in2 := by
  induction n with
  | zero => exact ⟨rfl, rfl, rfl⟩
  | succ n ih =>
    obtain ⟨in0, in1, in2⟩ := commandRule_inputs p (decodeRegs p d n) (phaseCommand_ne_clear (decodePhase n))
    rwa [decodeRegs, phaseRule, in0, in1, in2]

/-- PT0 after FINISH: R[11:0] over L[19:0] (R66). -/
theorem Datapath.finish_pt0_eq (d : Datapath) : d.finish.pt0 = d.r.extractLsb' 0 12 ++ d.l.extractLsb' 0 20 := by
  have r : d.r.extractLsb' 4 8 ++ d.r.extractLsb' 0 4 = d.r.extractLsb' 0 12 :=
    BitVec.extractLsb'_append_extractLsb'_eq_extractLsb' rfl
  have l : d.l.extractLsb' 16 4 ++ d.l.extractLsb' 8 8 ++ d.l.extractLsb' 0 8 = d.l.extractLsb' 0 20 := by
    rw [BitVec.extractLsb'_append_extractLsb'_eq_extractLsb' (by rfl),
      BitVec.extractLsb'_append_extractLsb'_eq_extractLsb' (by rfl)]
  calc d.finish.pt0
      = d.r.extractLsb' 4 8 ++ d.r.extractLsb' 0 4 ++
          (d.l.extractLsb' 16 4 ++ d.l.extractLsb' 8 8 ++ d.l.extractLsb' 0 8) := by
        rw [d.finish_eq]
        simp only [BitVec.append_assoc, BitVec.cast_eq]
    _ = d.r.extractLsb' 0 12 ++ d.l.extractLsb' 0 20 := by rw [r, l]

/-- CHECK after FINISH by the halves: the checksum lies in L, the payload is L[1:0] over R[19:0] (R67, R68). -/
theorem checkPlaintext_finish (d : Datapath) :
    checkPlaintext Config.params d.finish.plaintext =
      if d.l.extractLsb' 4 16 = 0x2501#16 then 1#2 ++ d.l.extractLsb' 0 2 ++ d.r.extractLsb' 0 20 else 0x200001#24 := by
  have checksum_eq : checksum d.finish.plaintext = d.l.extractLsb' 4 16 := by
    rw [checksum_plaintext, d.finish_pt0_eq, BitVec.extractLsb'_append_eq_of_add_le (by decide),
      extractLsb'_extractLsb' _ _ _ (by decide)]
  have payload_eq : payload d.finish.plaintext = d.l.extractLsb' 0 2 ++ d.r.extractLsb' 0 20 := by
    have pt1 : d.finish.pt1 = d.r.extractLsb' 12 8 := by rw [d.finish_eq]
    have r : d.r.extractLsb' 12 8 ++ d.r.extractLsb' 0 12 = d.r.extractLsb' 0 20 :=
      BitVec.extractLsb'_append_extractLsb'_eq_extractLsb' rfl
    rw [payload_plaintext, d.finish_pt0_eq, pt1, BitVec.extractLsb'_append_eq_of_add_le (by decide),
      extractLsb'_extractLsb' _ _ _ (by decide), BitVec.extractLsb'_append_eq_left, ← r]
    simp only [BitVec.append_assoc, BitVec.cast_eq]
  rw [checkPlaintext_params, checksum_eq, payload_eq]
  simp only [BitVec.append_assoc, BitVec.cast_eq]

theorem decodeRegs_nineteen_result (d : Datapath) :
    (decodeRegs Config.params d 19).result =
      if (decodeRegs Config.params d 19).l.extractLsb' 4 16 = 0x2501#16
      then 1#2 ++ (decodeRegs Config.params d 19).l.extractLsb' 0 2 ++
        (decodeRegs Config.params d 19).r.extractLsb' 0 20
      else 0x200001#24 := by
  rw [decodeRegs_nineteen]
  exact checkPlaintext_finish _

/-- Settles O30: the registers after the nineteenth step. -/
theorem decodeEndState : Obligations.DecodeEndState := by
  intro s phase
  have round : (decodeRegs Config.params s.dp 19).round = 0 :=
    (decodeRegs_round_eq_zero_iff Config.params s.dp 18).mpr (by decide)
  obtain ⟨tlo, thi⟩ := Prod.mk.inj (decodeRegs_nineteen_time s.dp)
  have result := decodeRegs_nineteen_result s.dp
  obtain ⟨in0, in1, in2⟩ := decodeRegs_inputs Config.params s.dp 19
  rw [Datapath.load_tlo, Datapath.timeLow_eq] at tlo
  refine ⟨_, engineSteps_nineteen phase Config.params, rfl, rfl, ?_⟩
  generalize decodeRegs Config.params s.dp 19 = d at *
  exact ⟨round, tlo, thi, in0, in1, in2, result⟩

/-! ### Nothing of the registers before -/

/-- `d` with the registers that no step of a DECODE reads before it has written them set to 0: all but the input buffer
and those of LOAD (R48). -/
def Datapath.loaded (d : Datapath) : Datapath :=
  { Datapath.zero with
    in0 := d.in0, in1 := d.in1, in2 := d.in2, l := d.l, r := d.r, tlo := d.tlo, thi := d.thi, round := d.round }

/-- `d` with the registers of FINISH and CHECK set to 0. -/
def Datapath.withoutOutput (d : Datapath) : Datapath := { d with result := 0, pt0 := 0, pt1 := 0 }

theorem Datapath.loaded_load_congr {d d' : Datapath} (in0 : d.in0 = d'.in0) (in1 : d.in1 = d'.in1)
    (in2 : d.in2 = d'.in2) : d.load.loaded = d'.load.loaded := by
  rw [d.load_eq, d'.load_eq, in0, in1, in2]
  rfl

/-- A round writes the registers between it and the next before it reads them (R59). -/
theorem Datapath.withoutOutput_oneRound (p : Params) (d : Datapath) :
    (d.oneRound p).withoutOutput = d.loaded.oneRound p := by
  simp only [Datapath.oneRound_eq]
  rfl

theorem Datapath.loaded_withoutOutput (d : Datapath) : d.withoutOutput.loaded = d.loaded := rfl

/-- FINISH and CHECK do not read what they write, but for the plaintext between them (R66, R68). -/
theorem Datapath.terminal_withoutOutput (p : Params) (d : Datapath) :
    (d.withoutOutput.finish).check p = (d.finish).check p := rfl

/-- After a round the registers depend on the input buffer alone, but for those of FINISH and CHECK. -/
theorem decodeRegs_congr (p : Params) {d d' : Datapath} (in0 : d.in0 = d'.in0) (in1 : d.in1 = d'.in1)
    (in2 : d.in2 = d'.in2) {n : Nat} (rounds : n ≤ 16) :
    (decodeRegs p d (n + 1)).loaded = (decodeRegs p d' (n + 1)).loaded := by
  induction n with
  | zero => exact Datapath.loaded_load_congr in0 in1 in2
  | succ n ih =>
    rw [decodeRegs_round_step p d ⟨by omega, rounds⟩, decodeRegs_round_step p d' ⟨by omega, rounds⟩,
      ← Datapath.loaded_withoutOutput, Datapath.withoutOutput_oneRound, ih (by omega),
      ← Datapath.withoutOutput_oneRound, Datapath.loaded_withoutOutput]

theorem decodeRegs_nineteen_congr (p : Params) {d d' : Datapath} (in0 : d.in0 = d'.in0) (in1 : d.in1 = d'.in1)
    (in2 : d.in2 = d'.in2) : decodeRegs p d 19 = decodeRegs p d' 19 := by
  have last_round (d : Datapath) : decodeRegs p d 17 = (decodeRegs p d 16).oneRound p :=
    decodeRegs_round_step p d (by decide)
  rw [decodeRegs_nineteen, decodeRegs_nineteen, ← Datapath.terminal_withoutOutput, last_round,
    Datapath.withoutOutput_oneRound, decodeRegs_congr p in0 in1 in2 (n := 15) (by decide),
    ← Datapath.withoutOutput_oneRound, ← last_round, Datapath.terminal_withoutOutput]

/-- Settles O31: two input buffers that agree give the same registers after nineteen steps. -/
theorem decodeDependsOnlyOnTheInput : Obligations.DecodeDependsOnlyOnTheInput :=
  fun _ _ phase phase' in0 in1 in2 => ⟨_, _, engineSteps_nineteen phase Config.params,
    engineSteps_nineteen phase' Config.params, decodeRegs_nineteen_congr Config.params in0 in1 in2⟩

end Sys2Proof.Machine
end

