-- ==== Sys2Proof/Proofs/CycleEffect.lean ====
section
/-! Everything the access of a cycle can do, and a cycle as its access followed by the engine's move (spec/20_memory.md
rules R29 to R31, 60_exceptions.md rule R81). -/

namespace Sys2Proof.Machine

open Sys2Proof

/-- The pins carry a write to `reg`. -/
def PortPins.writes (p : PortPins) (reg : Reg) : Prop := p.sel = true ∧ p.we = true ∧ regAt p.addr = some reg

/-- Everything the access of a cycle can do. -/
inductive AccessEffect (par : Params) (p : PortPins) (s : State) : State → Prop where
  /-- No access, or a write that changes nothing. -/
  | inert (no_read : p.sel = false ∨ p.we = true) : AccessEffect par p s s
  /-- A read, which can draw a free value. -/
  | read (sel : p.sel = true) (we : p.we = false) (draws : Nat) :
      AccessEffect par p s { s with rdata := (busRead p.addr s).1, draws := draws }
  /-- A write to CTRL. -/
  | ctrl (writes : p.writes .ctrl) : AccessEffect par p s (s.writeCtrl p.wdata)
  /-- A write to STATUS. -/
  | status (writes : p.writes .status) : AccessEffect par p s (s.acknowledge p.wdata)
  /-- A write that is rejected. -/
  | rejected (we : p.we = true) (code : ErrCode) (coded : code ≠ .none) : AccessEffect par p s (s.raiseCmdError code)
  /-- A write of DECODE's word to CMD. -/
  | started (writes : p.writes .cmd) (decode : p.wdata = encode .decode) (idle : s.phase = .idle) :
      AccessEffect par p s { s with done := false, phase := .load }
  /-- A write of a command's word to CMD. -/
  | completed (writes : p.writes .cmd) (i : Instr) (word : p.wdata = encode i) (idle : s.phase = .idle)
      (passes : needsRound i → s.dp.round ≠ 0) :
      AccessEffect par p s { s with dp := commandRule par i s.dp, done := true }
  /-- A write to a datapath register. -/
  | stored (reg : Reg) (writes : p.writes reg) (idle : s.phase = .idle) :
      AccessEffect par p s { s with dp := s.dp.store reg p.wdata }

theorem State.readOut_eq (s : State) (addr : BitVec 8) :
    ∃ draws, s.readOut addr = { s with rdata := (busRead addr s).1, draws := draws } := by
  obtain same | drawn := busRead_state addr s
  · exact ⟨s.draws, by rw [State.readOut, same]⟩
  · exact ⟨s.draws + 1, by rw [State.readOut, drawn]; rfl⟩

theorem accessEffect_of_illegalCommand {par : Params} {p : PortPins} {s t : State} (we : p.we = true)
    (h : s.illegalCommand = .next t) : AccessEffect par p s t := by
  rw [State.illegalCommand_eq] at h
  split at h <;> cases h
  · exact .rejected we .busy nofun
  · exact .rejected we .illegalCmd nofun

theorem accessEffect_of_presentCommand {par : Params} {p : PortPins} {s t : State} (writes : p.writes .cmd)
    (h : presentCommand par p.wdata s = .next t) : AccessEffect par p s t := by
  have ⟨_, we, _⟩ := writes
  obtain ⟨i, decoded, executed⟩ | ⟨-, illegal⟩ := presentCommand_cases h
  · obtain ⟨-, word⟩ := encodeOfDecodeIsTheWord p.wdata i decoded
    cases commandEffect_of_execWith executed with
    | rejected code coded => exact .rejected we code coded
    | started idle decode => exact .started writes (decode ▸ word.symm) idle
    | completed idle passes => exact .completed writes i word.symm idle passes
  · exact accessEffect_of_illegalCommand we illegal

theorem accessEffect_of_busWriteWith {par : Params} {p : PortPins} {s t : State} (sel : p.sel = true)
    (we : p.we = true) (h : busWriteWith par p.addr p.wdata s = .next t) : AccessEffect par p s t := by
  obtain rfl | ⟨at_ctrl, rfl⟩ | ⟨at_status, rfl⟩ | ⟨at_cmd, presented⟩ | ⟨-, rfl⟩ | ⟨idle, reg, at_reg, rfl⟩ :=
    busWriteWith_cases h
  · exact .inert (.inr we)
  · exact .ctrl ⟨sel, we, at_ctrl⟩
  · exact .status ⟨sel, we, at_status⟩
  · exact accessEffect_of_presentCommand ⟨sel, we, at_cmd⟩ presented
  · exact .rejected we .busy nofun
  · exact .stored reg ⟨sel, we, at_reg⟩ (s.busy_eq_false_iff.mp idle)

theorem accessEffect_of_busAccess {par : Params} {p : PortPins} {s t : State} (h : busAccess par p s = .next t) :
    AccessEffect par p s t := by
  unfold busAccess at h
  split at h
  case isFalse no_sel =>
    cases h
    exact .inert (.inl (Bool.eq_false_iff.mpr no_sel))
  case isTrue sel =>
    split at h
    case isTrue we => exact accessEffect_of_busWriteWith sel we h
    case isFalse no_we =>
      cases h
      obtain ⟨draws, read⟩ := s.readOut_eq p.addr
      exact read ▸ .read sel (Bool.eq_false_iff.mpr no_we) draws

/-- Everything a cycle can do, with any parameters. -/
theorem stepWith_cases {par : Params} {s t : State} (h : stepWith par s = .next t) :
    (s.nextPins.rstN = false ∧ t = s.fetch.resetBlock) ∨
    (s.nextPins.rstN = true ∧ ∃ u, AccessEffect par s.nextPins s.fetch u ∧
      (s.engineReady = true ∧ engineCycle par u = .next t ∨ s.engineReady = false ∧ t = u)) := by
  cases rst : s.nextPins.rstN with
  | false =>
    rw [stepWith_of_reset par rst] at h
    cases h
    exact .inl ⟨rfl, rfl⟩
  | true =>
    obtain ⟨u, access, cycle⟩ := stepWith_of_running par rst
    rw [cycle] at h
    refine .inr ⟨rfl, u, accessEffect_of_busAccess access, ?_⟩
    cases ready : s.engineReady with
    | true => exact .inl ⟨rfl, by simpa [ready] using h⟩
    | false =>
      cases (by simpa [ready] using h : u = t)
      exact .inr ⟨rfl, rfl⟩

/-- Everything a cycle of this hardware can do. -/
theorem step_cases {s t : State} (h : step s = .next t) :
    (s.nextPins.rstN = false ∧ t = s.fetch.resetBlock) ∨
    (s.nextPins.rstN = true ∧ ∃ u, AccessEffect Config.params s.nextPins s.fetch u ∧
      (s.engineReady = true ∧ t = u.stepped Config.params ∨ s.engineReady = false ∧ t = u)) := by
  obtain reset | ⟨rst, u, access, ⟨ready, moved⟩ | still⟩ := stepWith_cases h
  · exact .inl reset
  · rw [engineCycle_params] at moved
    exact .inr ⟨rst, u, access, .inl ⟨ready, eq_stepped_of_engineStepWith moved⟩⟩
  · exact .inr ⟨rst, u, access, .inr still⟩

/-! What an access leaves alone. -/

/-- While BUSY = 1 no access changes a register of the engine (R75). -/
theorem AccessEffect.keeps_engine {par : Params} {p : PortPins} {s t : State} (effect : AccessEffect par p s t)
    (running : s.phase ≠ .idle) : t.dp = s.dp ∧ t.phase = s.phase := by
  cases effect with
  | started _ _ idle | completed _ _ _ idle | stored _ _ idle => exact absurd idle running
  | _ => exact ⟨rfl, rfl⟩

/-- No access moves the host's list, the pace or the count of held cycles (Log 1, Log 3). -/
theorem AccessEffect.keeps_schedule {par : Params} {p : PortPins} {s t : State} (effect : AccessEffect par p s t) :
    t.host = s.host ∧ t.pace = s.pace ∧ t.held = s.held := by
  cases effect <;> exact ⟨rfl, rfl, rfl⟩

/-- Without a read `rdata` stays as it is (R29). -/
theorem AccessEffect.keeps_rdata {par : Params} {p : PortPins} {s t : State} (effect : AccessEffect par p s t)
    (no_read : p.sel = false ∨ p.we = true) : t.rdata = s.rdata := by
  cases effect with
  | read sel we => simp [sel, we] at no_read
  | _ => rfl

theorem State.phase_ne_idle_of_engineReady {s : State} (ready : s.engineReady = true) : s.phase ≠ .idle := by
  rw [State.engineReady, Bool.and_eq_true] at ready
  exact s.busy_eq_true_iff.mp ready.1

end Sys2Proof.Machine
end

