-- ==== Sys2Proof/Proofs/LegalStates.lean ====
section
/-! The obligations on the legal states: reset gives one, every step keeps them (spec/10_state.md rules R15, R18 and
R22, 60_exceptions.md rules R76 and R78), and what this says about stops (R74, Log 9) and held cycles (Log 3). -/

namespace Sys2Proof.Machine

open Sys2Proof

theorem resultForm_checkPlaintext (pt : BitVec 40) : resultForm (checkPlaintext Config.params pt) := by
  rw [checkPlaintext_params]
  split
  · exact .inr (.inr BitVec.extractLsb'_append_eq_left)
  · exact .inr (.inl rfl)

theorem resultForm_commandRule (i : Instr) {d : Datapath} (form : resultForm d.result) :
    resultForm (commandRule Config.params i d).result := by
  by_cases check : i = .check
  · subst check
    exact resultForm_checkPlaintext d.plaintext
  by_cases clear : i = .clear
  · subst clear
    exact .inl rfl
  · rwa [commandRule_result Config.params d check clear]

@[simp] theorem Datapath.store_result (d : Datapath) (reg : Reg) (v : Word) : (d.store reg v).result = d.result := by
  cases reg with
  | round =>
    rw [Datapath.store, Datapath.storeRound]
    split <;> rfl
  | _ => rfl

/-- A write of ROUND above 16 is ignored (R22). -/
theorem Datapath.store_round_le {d : Datapath} (round_le : d.round.toNat ≤ 16) (reg : Reg) (v : Word) :
    (d.store reg v).round.toNat ≤ 16 := by
  cases reg with
  | round =>
    rw [Datapath.store, Datapath.storeRound]
    split
    case isTrue stored_le => exact stored_le
    case isFalse => exact round_le
  | _ => exact round_le

theorem State.Legal.reset : State.reset.Legal where
  round_le := Nat.zero_le 16
  rounds_pos := nofun
  terminal_zero := fun _ => rfl
  busy_not_done := fun _ => rfl
  code_iff := iff_of_true rfl rfl
  result_form := .inl rfl

/-- The legal states are told by the block's registers alone. -/
theorem State.Legal.of_same_registers {s t : State} (h : s.Legal) (dp : t.dp = s.dp) (phase : t.phase = s.phase)
    (done : t.done = s.done) (err : t.err = s.err) (errcode : t.errcode = s.errcode) : t.Legal := by
  obtain ⟨round_le, rounds_pos, terminal_zero, busy_not_done, code_iff, result_form⟩ := h
  rw [State.busy, ← phase, ← done] at busy_not_done
  rw [← dp] at round_le rounds_pos terminal_zero result_form
  rw [← phase] at rounds_pos terminal_zero
  rw [← err, ← errcode] at code_iff
  exact ⟨round_le, rounds_pos, terminal_zero, busy_not_done, code_iff, result_form⟩

/-- Outside a DECODE the registers may take any values of their ranges. -/
theorem State.Legal.of_idle {s : State} (h : s.Legal) (idle : s.phase = .idle) (done : Bool) {d : Datapath}
    (round_le : d.round.toNat ≤ 16) (form : resultForm d.result) :
    ({ s with dp := d, done := done } : State).Legal where
  round_le := round_le
  rounds_pos := fun phase => nomatch idle.symm.trans phase
  terminal_zero := fun phase => absurd phase (by simp [idle])
  busy_not_done := fun busy => absurd idle (State.busy_eq_true_iff _ |>.mp busy)
  code_iff := h.code_iff
  result_form := form

theorem State.Legal.raiseCmdError {s : State} (h : s.Legal) {code : ErrCode} (coded : code ≠ .none) :
    (s.raiseCmdError code).Legal :=
  { h with
    code_iff := by
      cases err : s.err with
      | true => simp [err, h.code_iff]
      | false => simp [err, coded] }

theorem State.Legal.acknowledge {s : State} (h : s.Legal) (v : Word) : (s.acknowledge v).Legal :=
  { h with
    busy_not_done := fun busy => by
      rw [State.acknowledge_done, h.busy_not_done busy, ite_self]
    code_iff := by
      rw [State.acknowledge_errcode, State.acknowledge_err]
      split
      · exact iff_of_true rfl rfl
      · exact h.code_iff }

theorem State.Legal.start {s : State} (h : s.Legal) : ({ s with done := false, phase := .load } : State).Legal :=
  { h with
    rounds_pos := nofun
    terminal_zero := by simp
    busy_not_done := fun _ => rfl }

theorem AccessEffect.keeps_legal {p : PortPins} {s t : State} (effect : AccessEffect Config.params p s t)
    (h : s.Legal) : t.Legal := by
  cases effect with
  | inert => exact h
  | read | ctrl => exact h.of_same_registers rfl rfl rfl rfl rfl
  | status => exact h.acknowledge _
  | rejected _ code coded => exact h.raiseCmdError coded
  | started => exact h.start
  | completed _ i _ idle passes =>
    exact h.of_idle idle true (commandRule_round_le _ h.round_le passes) (resultForm_commandRule i h.result_form)
  | stored reg _ idle =>
    exact h.of_idle idle s.done (Datapath.store_round_le h.round_le reg _) (by simpa using h.result_form)

/-- The engine goes into a round with ROUND above 0 (R70). -/
theorem round_ne_zero_of_phaseAfter {p : Params} {phase : Phase} {d : Datapath}
    (rounds : phaseAfter (phaseRule p phase d) phase = .rounds) : (phaseRule p phase d).round ≠ 0 := by
  cases phase with
  | rounds =>
    intro zero
    rw [phaseAfter, phaseAfterRound, if_pos zero] at rounds
    exact nomatch rounds
  | load => exact (by decide : (16 : BitVec 5) ≠ 0)
  | _ => exact nomatch rounds

/-- The engine goes into the terminal action with ROUND at 0 (R66, R70). -/
theorem round_eq_zero_of_phaseAfter {p : Params} {phase : Phase} {d : Datapath}
    (terminal_zero : phase = .finish ∨ phase = .check → d.round = 0)
    (terminal : phaseAfter (phaseRule p phase d) phase = .finish ∨ phaseAfter (phaseRule p phase d) phase = .check) :
    (phaseRule p phase d).round = 0 := by
  cases phase with
  | rounds =>
    by_contra nonzero
    rw [phaseAfter, phaseAfterRound, if_neg nonzero] at terminal
    simp at terminal
  | finish => exact terminal_zero (.inl rfl)
  | idle | load | check => simp [phaseAfter] at terminal

/-- DONE stays 0 until CHECK, the engine's last step (R70). -/
theorem not_check_of_phaseAfter_ne_idle {d : Datapath} {phase : Phase} (running : phaseAfter d phase ≠ .idle) :
    phase ≠ .check ∧ phase ≠ .idle := by
  constructor <;> rintro rfl <;> exact running rfl

theorem State.Legal.stepped {s : State} (h : s.Legal) : (s.stepped Config.params).Legal where
  round_le := commandRule_round_le _ h.round_le fun needs => h.rounds_pos (eq_rounds_of_needsRound needs)
  rounds_pos := round_ne_zero_of_phaseAfter
  terminal_zero := round_eq_zero_of_phaseAfter h.terminal_zero
  busy_not_done := fun busy => by
    obtain ⟨not_check, not_idle⟩ := not_check_of_phaseAfter_ne_idle ((State.busy_eq_true_iff _).mp busy)
    simp [State.stepped, not_check, h.busy_not_done (s.busy_eq_true_iff.mpr not_idle)]
  code_iff := h.code_iff
  result_form := resultForm_commandRule _ h.result_form

theorem step_keeps_legal {s t : State} (h : s.Legal) (next : step s = .next t) : t.Legal := by
  obtain ⟨-, rfl⟩ | ⟨-, u, access, moved⟩ := step_cases next
  · exact State.Legal.reset.of_same_registers rfl rfl rfl rfl rfl
  · have legal_u : u.Legal := access.keeps_legal (h.of_same_registers rfl rfl rfl rfl rfl)
    obtain ⟨-, rfl⟩ | ⟨-, rfl⟩ := moved
    · exact legal_u.stepped
    · exact legal_u

/-! ### Held cycles -/

theorem State.HeldLegal.of_idle {par : Params} {s : State} (h : s.HeldLegal par) (idle : s.phase = .idle) :
    s.held = 0 :=
  h.resolve_right fun ⟨phase, _⟩ => nomatch idle.symm.trans phase

/-- An access keeps the count within its bound: it does not touch the count of a running DECODE. -/
theorem AccessEffect.keeps_heldLegal {par : Params} {p : PortPins} {s t : State} (effect : AccessEffect par p s t)
    (h : s.HeldLegal par) : t.HeldLegal par := by
  obtain ⟨-, -, held⟩ := effect.keeps_schedule
  by_cases idle : s.phase = .idle
  · exact .inl (held.trans (h.of_idle idle))
  · rw [State.HeldLegal, held, (effect.keeps_engine idle).2]
    exact h

theorem engineStepsWith_held {p : Params} {n : Nat} {s t : State} (h : engineStepsWith p n s = .next t) :
    t.held = s.held := by
  induction n generalizing s with
  | zero =>
    cases h
    rfl
  | succ n ih =>
    cases one : engineStepWith p s with
    | next u =>
      rw [engineStepsWith_succ one] at h
      rw [ih h, eq_stepped_of_engineStepWith one]
      rfl
    | fault f => simp [engineStepsWith, one] at h
    | refused q => simp [engineStepsWith, one] at h

/-- The engine counts a cycle as long as it holds back, and is done with the count when it moves (R88). -/
theorem engineCycle_keeps_heldLegal {par : Params} {s t : State} (h : s.HeldLegal par)
    (cycle : engineCycle par s = .next t) : t.HeldLegal par := by
  obtain ⟨phase, below, rfl⟩ | ⟨-, moved⟩ := engineCycle_cases cycle
  · exact .inr ⟨phase, by show decodeSteps + (s.held + 1) ≤ _; omega⟩
  · left
    rw [engineStepsWith_held moved, State.release_held]
    split
    · rfl
    · obtain none | ⟨-, within⟩ := h
      · exact none
      · omega

theorem stepWith_keeps_heldLegal {par : Params} {s t : State} (h : s.HeldLegal par)
    (next : stepWith par s = .next t) : t.HeldLegal par := by
  obtain ⟨-, rfl⟩ | ⟨-, u, access, moved⟩ := stepWith_cases next
  · exact .inl rfl
  · have held_u : u.HeldLegal par := access.keeps_heldLegal (s := s.fetch) h
    obtain ⟨-, cycle⟩ | ⟨-, rfl⟩ := moved
    · exact engineCycle_keeps_heldLegal held_u cycle
    · exact held_u

/-- Settles O51: the registers of reset lie in their ranges, and nothing is counted. -/
theorem resetStateIsLegal : Obligations.ResetStateIsLegal := ⟨State.Legal.reset, fun _ => .inl rfl⟩

/-- Settles O52: the two invariants, each kept by the access and by the engine's move, and the reset cycle. -/
theorem stepKeepsStatesLegal : Obligations.StepKeepsStatesLegal :=
  ⟨fun _ _ => step_keeps_legal, fun _ _ _ => stepWith_keeps_heldLegal,
    fun par _ reset => ⟨_, stepWith_of_reset par reset, rfl, rfl⟩⟩

/-! ### Stops -/

/-- A cycle with an engine step is that step after the access, which leaves the registers and PHASE as they were. -/
theorem step_of_engineReady {s : State} (rst : s.nextPins.rstN = true) (ready : s.engineReady = true) :
    ∃ u, step s = engineStep u ∧ u.dp = s.dp ∧ u.phase = s.phase := by
  obtain ⟨u, access, cycle⟩ := step_of_running rst
  have running : s.phase ≠ .idle := State.phase_ne_idle_of_engineReady ready
  exact ⟨u, by rw [cycle, if_pos ready], (accessEffect_of_busAccess access).keeps_engine (s := s.fetch) running⟩

/-- No engine step at ROUND = 0: the cycle ends in a next state. -/
theorem step_answers_next {s : State} (counting : ¬(s.nextPins.rstN = true ∧ s.engineReady = true ∧ s.phase = .rounds ∧
    s.dp.round = 0)) : ∃ t, step s = .next t := by
  cases rst : s.nextPins.rstN with
  | false => exact ⟨_, step_of_reset rst⟩
  | true =>
    cases ready : s.engineReady with
    | true =>
      obtain ⟨u, cycle, dp, phase⟩ := step_of_engineReady rst ready
      rw [cycle]
      exact ⟨_, engineStepWith_eq fun rounds zero => counting ⟨rst, ready, phase ▸ rounds, dp ▸ zero⟩⟩
    | false =>
      obtain ⟨u, -, cycle⟩ := step_of_running rst
      exact ⟨u, by simp [cycle, ready]⟩

theorem step_of_round_zero {s : State} (rst : s.nextPins.rstN = true) (ready : s.engineReady = true)
    (rounds : s.phase = .rounds) (zero : s.dp.round = 0) : step s = .fault .roundsAtZero := by
  obtain ⟨u, cycle, dp, phase⟩ := step_of_engineReady rst ready
  rw [cycle]
  exact engineStepWith_of_round_zero (phase.trans rounds) (dp ▸ zero)

/-- Settles O54: the fault of the engine's step at ROUND = 0, and a next state otherwise. -/
theorem onlyAnEngineStepAtRoundZeroStops : Obligations.OnlyAnEngineStepAtRoundZeroStops := by
  intro s
  by_cases stops : s.nextPins.rstN = true ∧ s.engineReady = true ∧ s.phase = .rounds ∧ s.dp.round = 0
  · obtain ⟨rst, ready, rounds, zero⟩ := stops
    rw [step_of_round_zero rst ready rounds zero]
    exact ⟨nofun, iff_of_true ⟨_, rfl⟩ ⟨rst, ready, rounds, zero⟩⟩
  · obtain ⟨t, next⟩ := step_answers_next stops
    rw [next]
    exact ⟨nofun, iff_of_false nofun stops⟩

/-- Settles O53: a legal state in PHASE = ROUNDS has ROUND above 0. -/
theorem legalStatesAlwaysStep : Obligations.LegalStatesAlwaysStep := fun _ legal =>
  step_answers_next fun ⟨_, _, rounds, zero⟩ => legal.rounds_pos rounds zero

end Sys2Proof.Machine
end

