-- ==== Sys2Proof/Proofs/SafetyRules.lean ====
section
/-! The obligations on what a step may not do: disturb a DECODE (spec/44_control.md rule R70), clear ERR or DONE
(60_exceptions.md rules R78 and R79), or change the input buffer or RESULT (10_state.md rules R17 and R18). -/

namespace Sys2Proof.Machine

open Sys2Proof

/-- The access of a cycle outside reset, written with the pins, is the one that `writesNext` names. -/
theorem State.writesNext_of_writes {s : State} {reg : Reg} {v : Word} (rst : s.nextPins.rstN = true)
    (writes : s.nextPins.writes reg) (word : s.nextPins.wdata = v) : s.writesNext reg v := by
  obtain ⟨sel, we, at_reg⟩ := writes
  exact ⟨rst, sel, we, at_reg, word⟩

/-- Settles O32: the access leaves the registers and PHASE alone, and the engine's step reads nothing else. -/
theorem busAccessesDoNotDisturbADecode : Obligations.BusAccessesDoNotDisturbADecode := by
  intro s t running rst next
  obtain ⟨reset, -⟩ | ⟨-, u, access, moved⟩ := step_cases next
  · exact nomatch rst.symm.trans reset
  obtain ⟨dp, phase⟩ := access.keeps_engine (s := s.fetch) running
  change u.dp = s.dp at dp
  change u.phase = s.phase at phase
  obtain ⟨ready, rfl⟩ | ⟨still, rfl⟩ := moved
  · refine ⟨fun _ => ⟨s.stepped Config.params, engineStepWith_eq fun rounds zero => ?_, ?_, ?_⟩,
      fun still => nomatch ready.symm.trans still⟩
    · exact nomatch (step_of_round_zero rst ready rounds zero).symm.trans next
    · rw [State.stepped, dp, phase]
      rfl
    · rw [State.stepped, dp, phase]
      rfl
  · exact ⟨fun ready => (nomatch still.symm.trans ready), fun _ => ⟨dp, phase⟩⟩

/-- The engine's step can only set DONE (R70). -/
theorem State.done_of_stepped {p : Params} {s : State} (h : (s.stepped p).done = false) : s.done = false :=
  (Bool.or_eq_false_iff.mp h).2

theorem AccessEffect.acknowledges_of_clears_err {p : PortPins} {s t : State}
    (effect : AccessEffect Config.params p s t) (was : s.err = true) (is : t.err = false) :
    p.writes .status ∧ bit p.wdata 2 = true := by
  cases effect with
  | status writes =>
    refine ⟨writes, ?_⟩
    by_contra no_ack
    rw [State.acknowledge_err, if_neg no_ack] at is
    exact nomatch was.symm.trans is
  | rejected => exact nomatch is
  | _ => exact nomatch was.symm.trans is

/-- Settles O55: the engine's step keeps ERR, and of the accesses only an acknowledge clears it. -/
theorem onlyAcknowledgeOrResetClearsErr : Obligations.OnlyAcknowledgeOrResetClearsErr := by
  intro s t next was is
  obtain ⟨reset, -⟩ | ⟨rst, u, access, moved⟩ := step_cases next
  · exact .inl reset
  have cleared : u.err = false := by
    obtain ⟨-, rfl⟩ | ⟨-, rfl⟩ := moved <;> exact is
  obtain ⟨writes, acknowledged⟩ := access.acknowledges_of_clears_err was cleared
  exact .inr ⟨_, State.writesNext_of_writes rst writes rfl, acknowledged⟩

theorem AccessEffect.cases_of_clears_done {p : PortPins} {s t : State}
    (effect : AccessEffect Config.params p s t) (was : s.done = true) (is : t.done = false) :
    (p.writes .status ∧ bit p.wdata 1 = true) ∨ (p.writes .cmd ∧ p.wdata = encode .decode ∧ s.phase = .idle) := by
  cases effect with
  | status writes =>
    refine .inl ⟨writes, ?_⟩
    by_contra no_ack
    rw [State.acknowledge_done, if_neg no_ack] at is
    exact nomatch was.symm.trans is
  | started writes decode idle => exact .inr ⟨writes, decode, idle⟩
  | completed => exact nomatch is
  | _ => exact nomatch was.symm.trans is

/-- Settles O56: the engine's step only sets DONE, and of the accesses only an acknowledge and the acceptance of DECODE
clear it. -/
theorem doneIsClearedOnlyByItsRules : Obligations.DoneIsClearedOnlyByItsRules := by
  intro s t next was is
  obtain ⟨reset, -⟩ | ⟨rst, u, access, moved⟩ := step_cases next
  · exact .inl reset
  have cleared : u.done = false := by
    obtain ⟨-, rfl⟩ | ⟨-, rfl⟩ := moved
    · exact State.done_of_stepped is
    · exact is
  obtain ⟨writes, acknowledged⟩ | ⟨writes, decode, idle⟩ := access.cases_of_clears_done was cleared
  · exact .inr (.inl ⟨_, State.writesNext_of_writes rst writes rfl, acknowledged⟩)
  · exact .inr (.inr ⟨State.writesNext_of_writes rst writes decode, idle⟩)

/-! ### The input buffer -/

/-- The registers of the input buffer (R17). -/
def Datapath.inputs (d : Datapath) : BitVec 32 × BitVec 32 × BitVec 16 := (d.in0, d.in1, d.in2)

theorem Datapath.inputs_commandRule (p : Params) (d : Datapath) {i : Instr} (not_clear : i ≠ .clear) :
    (commandRule p i d).inputs = d.inputs := by
  obtain ⟨in0, in1, in2⟩ := commandRule_inputs p d not_clear
  rw [Datapath.inputs, in0, in1, in2, Datapath.inputs]

theorem Datapath.inputs_store (d : Datapath) {reg : Reg} (v : Word) (other : reg ≠ .in0 ∧ reg ≠ .in1 ∧ reg ≠ .in2) :
    (d.store reg v).inputs = d.inputs := by
  cases reg with
  | in0 | in1 | in2 => simp at other
  | round =>
    rw [Datapath.store, Datapath.storeRound]
    split <;> rfl
  | _ => rfl

/-- The accesses that can change the input buffer: CLEAR, and a write of one of its registers. -/
theorem AccessEffect.cases_of_changes_inputs {p : PortPins} {s t : State}
    (effect : AccessEffect Config.params p s t) (changed : s.dp.inputs ≠ t.dp.inputs) :
    s.phase = .idle ∧ (p.writes .cmd ∧ p.wdata = encode .clear ∨ p.writes .in0 ∨ p.writes .in1 ∨ p.writes .in2) := by
  cases effect with
  | completed writes i word idle =>
    by_cases clear : i = .clear
    · exact ⟨idle, .inl ⟨writes, clear ▸ word⟩⟩
    · exact absurd (Datapath.inputs_commandRule _ _ clear).symm changed
  | stored reg writes idle =>
    refine ⟨idle, .inr ?_⟩
    by_contra other
    refine changed (Datapath.inputs_store s.dp _ ?_).symm
    refine ⟨?_, ?_, ?_⟩ <;> rintro rfl <;> simp [writes] at other
  | _ => exact absurd rfl changed

/-- Settles O57: the engine's commands are not CLEAR, and of the accesses only the named ones change the buffer. -/
theorem inputBufferChangesOnlyByItsRules : Obligations.InputBufferChangesOnlyByItsRules := by
  intro s t next changed
  obtain ⟨reset, -⟩ | ⟨rst, u, access, moved⟩ := step_cases next
  · exact .inl reset
  have same : t.dp.inputs = u.dp.inputs := by
    obtain ⟨-, rfl⟩ | ⟨-, rfl⟩ := moved
    · exact Datapath.inputs_commandRule _ _ (phaseCommand_ne_clear u.phase)
    · rfl
  obtain ⟨idle, by_rule⟩ := access.cases_of_changes_inputs (fun kept => changed (kept.trans same.symm))
  refine .inr ⟨idle, ?_⟩
  obtain ⟨writes, clear⟩ | writes | writes | writes := by_rule
  · exact .inl (State.writesNext_of_writes rst writes clear)
  · exact .inr ⟨_, .inl (State.writesNext_of_writes rst writes rfl)⟩
  · exact .inr ⟨_, .inr (.inl (State.writesNext_of_writes rst writes rfl))⟩
  · exact .inr ⟨_, .inr (.inr (State.writesNext_of_writes rst writes rfl))⟩

/-! ### RESULT -/

theorem AccessEffect.cases_of_changes_result {p : PortPins} {s t : State}
    (effect : AccessEffect Config.params p s t) (changed : t.dp.result ≠ s.dp.result) :
    s.phase = .idle ∧ p.writes .cmd ∧ (p.wdata = encode .check ∨ p.wdata = encode .clear) := by
  cases effect with
  | completed writes i word idle =>
    refine ⟨idle, writes, ?_⟩
    by_contra other
    refine changed (commandRule_result _ _ ?_ ?_) <;> rintro rfl <;> simp [word] at other
  | stored reg => exact absurd (Datapath.store_result _ reg _) changed
  | _ => exact absurd rfl changed

/-- The engine's step writes RESULT in PHASE = CHECK alone (R70). -/
theorem phaseRule_result (p : Params) (d : Datapath) {phase : Phase} (not_check : phase ≠ .check) :
    (phaseRule p phase d).result = d.result := by
  refine commandRule_result p d ?_ (phaseCommand_ne_clear phase)
  cases phase with
  | check => exact absurd rfl not_check
  | _ => exact nofun

/-- Settles O58: the writes of RESULT by the engine's step and by the access of a cycle. -/
theorem resultChangesOnlyByItsRules : Obligations.ResultChangesOnlyByItsRules := by
  intro s t next changed
  obtain ⟨reset, -⟩ | ⟨rst, u, access, moved⟩ := step_cases next
  · exact .inl reset
  by_cases by_access : u.dp.result = s.dp.result
  · obtain ⟨ready, rfl⟩ | ⟨-, rfl⟩ := moved
    · have phase : u.phase = s.phase := 
        (access.keeps_engine (s := s.fetch) (State.phase_ne_idle_of_engineReady (s := s) ready)).2
      refine .inr (.inl ⟨?_, ready⟩)
      by_contra not_check
      exact changed ((phaseRule_result _ u.dp (phase ▸ not_check)).trans by_access)
    · exact absurd by_access changed
  · obtain ⟨idle, writes, word⟩ := access.cases_of_changes_result by_access
    exact .inr (.inr ⟨idle, word.imp (State.writesNext_of_writes rst writes) (State.writesNext_of_writes rst writes)⟩)

end Sys2Proof.Machine
end

