-- ==== Sys2Proof/Proofs/DecodeDuration.lean ====
section
/-! The obligations on how long a DECODE runs (spec/44_control.md rule R73, 70_reset_and_hazards.md rule R88, Log 3):
where the engine stands after c cycles, whatever the host does short of reset. -/

namespace Sys2Proof.Machine

open Sys2Proof

/-- The engine steps taken after c cycles: the cycles to come take one step each, and before any cycle there is none
(Log 3). -/
def stepsAfter (p : Params) (c : Nat) : Nat := if c = 0 then 0 else 19 - (p.decodeCycles - c)

/-- The cycles counted as held back after c cycles (Log 3). -/
def heldAfter (p : Params) (c : Nat) : Nat := if c + 19 ≤ p.decodeCycles then c else 0

/-- The state c cycles after the acceptance of a DECODE that finds the registers `d`, with no reset to come. -/
structure State.Decoding (p : Params) (d : Datapath) (c : Nat) (s : State) : Prop where
  regs : s.dp = decodeRegs p d (stepsAfter p c)
  phase : s.phase = decodePhase (stepsAfter p c)
  /-- A design that never holds back does not look at the count. -/
  held : 19 < p.decodeCycles → s.held = heldAfter p c
  done : c = p.decodeCycles → s.done = true
  pace : s.pace = []
  no_reset : ∀ q, HostItem.pins q ∈ s.host → q.rstN = true

theorem stepsAfter_lt {p : Params} {c : Nat} (running : c < p.decodeCycles) : stepsAfter p c < 19 := by
  unfold stepsAfter
  split <;> omega

theorem stepsAfter_decodeCycles {p : Params} (pos : 1 ≤ p.decodeCycles) : stepsAfter p p.decodeCycles = 19 := by
  rw [stepsAfter, if_neg (by omega), Nat.sub_self]

theorem decodePhase_eq_load_iff (n : Nat) : decodePhase n = .load ↔ n = 0 := by
  unfold decodePhase
  split_ifs <;> simp <;> omega

/-- Before the last nineteen cycles the engine holds its first step back. -/
theorem stepsAfter_of_holding {p : Params} {c : Nat} (holding : c + 19 ≤ p.decodeCycles) : stepsAfter p c = 0 := by
  unfold stepsAfter
  split <;> omega

theorem stepsAfter_of_pos {p : Params} {c : Nat} (pos : 0 < c) : stepsAfter p c = 19 - (p.decodeCycles - c) :=
  if_neg (by omega)

/-- In the last nineteen cycles, or all of them, a cycle takes the engine on to where the next one finds it. -/
theorem stepsAfter_succ {p : Params} {c : Nat} (running : c < p.decodeCycles) (moving : p.decodeCycles ≤ c + 19) :
    stepsAfter p c + stepsPerCycle p (decodePhase (stepsAfter p c)) = stepsAfter p (c + 1) := by
  have next := stepsAfter_of_pos (p := p) c.succ_pos
  by_cases first : stepsAfter p c = 0
  · have at_start : c = 0 ∨ p.decodeCycles = c + 19 := by
      refine (Nat.eq_zero_or_pos c).imp_right fun pos => ?_
      rw [stepsAfter_of_pos pos] at first
      omega
    rw [first, next, decodePhase, if_pos rfl, stepsPerCycle, decodeSteps]
    omega
  · have single : stepsPerCycle p (decodePhase (stepsAfter p c)) = 1 := by
      have not_load := mt (decodePhase_eq_load_iff _).mp first
      generalize decodePhase (stepsAfter p c) = phase at not_load
      cases phase with
      | load => exact absurd rfl not_load
      | _ => rfl
    have pos : 0 < c := Nat.pos_of_ne_zero fun zero => first (if_pos zero)
    rw [stepsAfter_of_pos pos] at first
    rw [single, next, stepsAfter_of_pos pos]
    omega

/-- Before the last nineteen cycles of a DECODE the engine counts the cycle. -/
theorem engineCycle_of_holding {p : Params} {c : Nat} {s : State} (holding : c + 19 < p.decodeCycles)
    (phase : s.phase = decodePhase (stepsAfter p c)) (held : s.held = heldAfter p c) :
    engineCycle p s = .next { s with held := c + 1 } := by
  rw [stepsAfter_of_holding holding.le] at phase
  rw [heldAfter, if_pos holding.le] at held
  have holds : s.holds p = true := by
    rw [State.holds, phase, held, decodeSteps]
    simp [decodePhase, Nat.add_comm, holding]
  rw [engineCycle, if_pos holds, held]

/-- In the other cycles it takes its steps. -/
theorem engineCycle_of_moving {p : Params} {d : Datapath} {c : Nat} {s : State} (running : c < p.decodeCycles)
    (moving : p.decodeCycles ≤ c + 19) (regs : s.dp = decodeRegs p d (stepsAfter p c))
    (phase : s.phase = decodePhase (stepsAfter p c)) (held : 19 < p.decodeCycles → s.held = heldAfter p c) :
    engineCycle p s = .next ((s.release p).afterSteps p d (stepsAfter p (c + 1))) := by
  have holds : ¬ s.holds p = true := by
    rw [State.holds, phase, Bool.and_eq_true, beq_iff_eq, decodePhase_eq_load_iff, decide_eq_true_eq, decodeSteps]
    rintro ⟨first, below⟩
    have counted := held (by omega)
    unfold stepsAfter at first
    unfold heldAfter at counted
    split_ifs at first counted <;> omega
  have at_steps := State.eq_afterSteps (stepsAfter_lt running) ((s.release_dp p).trans regs)
    ((s.release_phase p).trans phase)
  have next := stepsAfter_succ running moving
  have within : stepsAfter p (c + 1) ≤ 19 := by
    unfold stepsAfter
    split <;> omega
  rw [engineCycle, if_neg holds, phase]
  conv_lhs => rw [at_steps]
  rw [engineStepsWith_afterSteps p d (next ▸ within), next]

/-- The engine's part of a cycle of a DECODE. -/
theorem State.Decoding.engineCycle {p : Params} {d : Datapath} {c : Nat} {s : State} (h : s.Decoding p d c)
    (running : c < p.decodeCycles) : ∃ t, engineCycle p s = .next t ∧ t.Decoding p d (c + 1) := by
  by_cases holding : c + 19 < p.decodeCycles
  · refine ⟨_, engineCycle_of_holding holding h.phase (h.held (by omega)), ?_⟩
    have before := stepsAfter_of_holding (p := p) (c := c) (by omega)
    have after := stepsAfter_of_holding (p := p) (c := c + 1) (by omega)
    exact { h with
      regs := by rw [after, ← before]; exact h.regs
      phase := by rw [after, ← before]; exact h.phase
      held := fun _ => by rw [heldAfter, if_pos (by omega)]
      done := fun last => by omega }
  · refine ⟨_, engineCycle_of_moving running (by omega) h.regs h.phase h.held, ?_⟩
    exact {
      regs := rfl
      phase := rfl
      held := fun holds_back => by
        show (s.release p).held = _
        rw [State.release_held, decodeSteps, if_pos holds_back, heldAfter, if_neg (by omega)]
      done := fun last => by
        rw [State.afterSteps, last, stepsAfter_decodeCycles (by omega)]
        rfl
      pace := (s.release_pace p).trans h.pace
      no_reset := by
        show ∀ q, HostItem.pins q ∈ (s.release p).host → _
        rw [State.release_host]
        exact h.no_reset }

/-! ### The cycles -/

/-- Only an item of the host's list can pull `rst_n` (Log 1). -/
theorem State.nextPins_rstN {s : State} (no_reset : ∀ q, HostItem.pins q ∈ s.host → q.rstN = true) :
    s.nextPins.rstN = true := by
  unfold State.nextPins
  split
  case h_1 => rfl
  case h_2 q rest item => exact no_reset q (by simp [item])
  case h_3 => rfl

theorem State.hostAfter_subset (s : State) : s.hostAfter ⊆ s.host := by
  unfold State.hostAfter
  split
  case h_1 => exact List.nil_subset _
  case h_2 item => simp [item]
  case h_3 item => split <;> simp [item]

theorem State.Decoding.engineReady {p : Params} {d : Datapath} {c : Nat} {s : State} (h : s.Decoding p d c)
    (running : c < p.decodeCycles) : s.engineReady = true := by
  have busy : s.busy = true := s.busy_eq_true_iff.mpr fun idle =>
    absurd ((decodePhase_eq_idle_iff _).mp (h.phase.symm.trans idle)) (by simpa using stepsAfter_lt running)
  rw [State.engineReady, busy, h.pace]
  rfl

/-- Whatever the access of the cycle, the engine's part of the state stays as it is (R75). -/
theorem State.Decoding.access {p : Params} {d : Datapath} {c : Nat} {q : PortPins} {s u : State}
    (h : s.Decoding p d c) (running : c < p.decodeCycles) (access : AccessEffect p q s.fetch u) :
    u.Decoding p d c := by
  have not_idle : s.phase ≠ .idle := State.phase_ne_idle_of_engineReady (h.engineReady running)
  obtain ⟨dp, phase⟩ := access.keeps_engine (s := s.fetch) not_idle
  obtain ⟨host, pace, held⟩ := access.keeps_schedule
  exact {
    regs := dp.trans h.regs
    phase := phase.trans h.phase
    held := fun holds_back => held.trans (h.held holds_back)
    done := fun last => by omega
    pace := by rw [pace, State.fetch_pace, h.pace, List.tail_nil]
    no_reset := fun q next => h.no_reset q (s.hostAfter_subset (by rwa [host] at next)) }

theorem State.Decoding.step {p : Params} {d : Datapath} {c : Nat} {s : State} (h : s.Decoding p d c)
    (running : c < p.decodeCycles) : ∃ t, stepWith p s = .next t ∧ t.Decoding p d (c + 1) := by
  obtain ⟨u, access, cycle⟩ := stepWith_of_running p (State.nextPins_rstN h.no_reset)
  rw [cycle, if_pos (h.engineReady running)]
  exact (h.access running (accessEffect_of_busAccess access)).engineCycle running

theorem run_succ {M : Host.Core} {s t : M.State} (h : M.step s = .next t) (k : Nat) : M.run (k + 1) s = M.run k t := by
  rw [Host.Core.run, h]

theorem exists_step_of_run {M : Host.Core} {k : Nat} {s u : M.State} (run : M.run (k + 1) s = .next u) :
    ∃ t, M.step s = .next t ∧ M.run k t = .next u := by
  rw [Host.Core.run] at run
  split at run
  case h_1 t next => exact ⟨t, next, run⟩
  all_goals exact nomatch run

/-- What every step keeps holds at the end of a run. -/
theorem run_keeps {M : Host.Core} {P : M.State → Prop} (kept : ∀ s t, P s → M.step s = .next t → P t) {k : Nat}
    {s u : M.State} (start : P s) (run : M.run k s = .next u) : P u := by
  induction k generalizing s with
  | zero =>
    cases run
    exact start
  | succ k ih =>
    obtain ⟨t, next, rest⟩ := exists_step_of_run run
    exact ih (kept s t start next) rest

theorem State.Decoding.run {p : Params} {d : Datapath} {c k : Nat} {s : State} (h : s.Decoding p d c)
    (within : c + k ≤ p.decodeCycles) : ∃ u, (coreWith p).run k s = .next u ∧ u.Decoding p d (c + k) := by
  induction k generalizing c s with
  | zero => exact ⟨s, rfl, h⟩
  | succ k ih =>
    obtain ⟨t, next, decoding⟩ := h.step (by omega)
    obtain ⟨u, run, decoded⟩ := ih decoding (by omega)
    exact ⟨u, (run_succ (M := coreWith p) next k).trans run, by rwa [Nat.add_right_comm, Nat.add_assoc] at decoded⟩

theorem State.Decoding.busy {p : Params} {d : Datapath} {c : Nat} {s : State} (h : s.Decoding p d c)
    (running : c < p.decodeCycles) : s.busy = true :=
  (Bool.and_eq_true_iff.mp (h.engineReady running)).1

/-- Where the engine stands after DECODE_CYCLES cycles (R88). -/
theorem State.Decoding.ended {p : Params} {d : Datapath} {s : State} (h : s.Decoding p d p.decodeCycles)
    (pos : 1 ≤ p.decodeCycles) : s.phase = .idle ∧ s.done = true ∧ s.dp = decodeRegs p d 19 := by
  have last := stepsAfter_decodeCycles pos
  exact ⟨by rw [h.phase, last]; rfl, h.done rfl, by rw [h.regs, last]⟩

/-- A DECODE is BUSY for DECODE_CYCLES cycles and then has taken its nineteen steps. -/
theorem State.Decoding.runs {p : Params} {d : Datapath} {s : State} (h : s.Decoding p d 0) (pos : 1 ≤ p.decodeCycles) :
    (∀ k < p.decodeCycles, ∃ u : State, (coreWith p).run k s = .next u ∧ u.busy = true) ∧
    ∃ u : State, (coreWith p).run p.decodeCycles s = .next u ∧ u.phase = .idle ∧ u.done = true ∧
      u.dp = decodeRegs p d 19 := by
  constructor
  · intro k running
    obtain ⟨u, run, decoding⟩ := h.run (k := k) (by omega)
    rw [Nat.zero_add] at decoding
    exact ⟨u, run, decoding.busy running⟩
  · obtain ⟨u, run, decoding⟩ := h.run (k := p.decodeCycles) (by omega)
    rw [Nat.zero_add] at decoding
    exact ⟨u, run, decoding.ended pos⟩

/-- Settles O33: this hardware takes one step in each of its nineteen cycles, whatever is counted. -/
theorem decodeEndsAfterNineteenCycles : Obligations.DecodeEndsAfterNineteenCycles := by
  intro s phase pace no_reset
  have decoding : s.Decoding Config.params s.dp 0 :=
    { regs := rfl, phase := phase, held := nofun, done := nofun, pace := pace, no_reset := no_reset }
  obtain ⟨busy, u, run, idle, done, regs⟩ := decoding.runs (by decide)
  exact ⟨busy, u, _, run, u.busy_eq_false_iff.mpr idle, done, engineSteps_nineteen phase Config.params, regs⟩

theorem Params.one_le_decodeCycles {p : Params} (legal : p.legal = true) : 1 ≤ p.decodeCycles :=
  of_decide_eq_true (Bool.and_eq_true_iff.mp legal).2

/-- Settles O59: no cycle is counted when the DECODE is accepted, and every step keeps the count legal to its end. -/
theorem decodeTakesDecodeCycles : Obligations.DecodeTakesDecodeCycles := by
  intro par s t legal idle heldLegal pace no_reset accepted
  obtain rfl : { s with done := false, phase := .load } = t :=
    Host.Outcome.next.inj ((State.decodeCommand_of_idle idle).symm.trans accepted)
  have pos := Params.one_le_decodeCycles legal
  have none_held : s.held = 0 := heldLegal.of_idle idle
  have decoding : State.Decoding par s.dp 0 { s with done := false, phase := .load } :=
    { regs := rfl
      phase := rfl
      held := fun _ => by rw [heldAfter, ite_self]; exact none_held
      done := fun last => by omega
      pace := pace
      no_reset := no_reset }
  obtain ⟨busy, u, run, ended, done, regs⟩ := decoding.runs pos
  have legal_u : u.HeldLegal par :=
    run_keeps (M := coreWith par) (P := State.HeldLegal par) (fun _ _ => stepWith_keeps_heldLegal)
      (by exact .inl none_held) run
  exact ⟨busy, u, _, run, u.busy_eq_false_iff.mpr ended, done, legal_u.of_idle ended, engineSteps_nineteen rfl par,
    regs⟩

end Sys2Proof.Machine
end

