-- ==== Sys2Proof/Proofs/PortReads.lean ====
section
/-! The obligations on bus reads: the decoding of the address (spec/20_memory.md rule R32), the STATUS word (10_state.md
rule R14), reads while BUSY = 0 (20_memory.md rules R30 and R36) and while BUSY = 1 (70_reset_and_hazards.md rule
R89). -/

namespace Sys2Proof.Machine

open Sys2Proof

/-- An address is looked at from bit 2 up (R32). -/
theorem regAt_congr {a b : BitVec 8} (same_word : a.extractLsb' 2 6 = b.extractLsb' 2 6) : regAt a = regAt b := by
  have word (c : BitVec 8) : (c >>> 2).toNat = (c.extractLsb' 2 6).toNat := by
    rw [BitVec.toNat_ushiftRight, BitVec.extractLsb'_toNat, Nat.shiftRight_eq_div_pow]
    omega
  unfold regAt
  rw [word a, word b, same_word]

/-- Settles O35: both accesses look at the address through `regAt` alone. -/
theorem lowAddressBitsAreIgnored : Obligations.LowAddressBitsAreIgnored := by
  intro s a b v same_word
  simp [busRead, busWrite, busWriteWith, regAt_congr same_word]

/-! ### STATUS -/

/-- VALID, ERR, DONE and BUSY, bits 3:0 of STATUS (R14). -/
def State.flags (s : State) (valid : Bool) : BitVec 4 :=
  BitVec.ofBool valid ++ BitVec.ofBool s.err ++ BitVec.ofBool s.done ++ BitVec.ofBool s.busy

theorem State.statusWith_eq (s : State) (valid : Bool) :
    s.statusWith valid = 0#24 ++ (s.errcode.bits ++ s.flags valid) := by
  simp only [State.statusWith, State.flags, BitVec.append_assoc, BitVec.cast_eq]

theorem State.getLsbD_flags (s : State) (valid : Bool) :
    (s.flags valid).getLsbD 0 = s.busy ∧ (s.flags valid).getLsbD 1 = s.done ∧ (s.flags valid).getLsbD 2 = s.err ∧
      (s.flags valid).getLsbD 3 = valid := by
  unfold State.flags
  generalize s.busy = busy, s.done = done, s.err = err
  revert busy done err valid
  decide

theorem State.getLsbD_statusWith_of_lt (s : State) (valid : Bool) {i : Nat} (i_lt : i < 4) :
    (s.statusWith valid).getLsbD i = (s.flags valid).getLsbD i := by
  rw [s.statusWith_eq, BitVec.getLsbD_append, if_pos (by omega), BitVec.getLsbD_append, if_pos i_lt]

/-- Every bit of STATUS but VALID is the same whatever VALID is (R89). -/
theorem State.getLsbD_statusWith_congr (s : State) (valid valid' : Bool) {i : Nat} (i_ne : i ≠ 3) :
    (s.statusWith valid).getLsbD i = (s.statusWith valid').getLsbD i := by
  by_cases low : i < 4
  · rw [s.getLsbD_statusWith_of_lt _ low, s.getLsbD_statusWith_of_lt _ low]
    obtain ⟨busy, done, err, -⟩ := s.getLsbD_flags valid
    obtain ⟨busy', done', err', -⟩ := s.getLsbD_flags valid'
    obtain rfl | rfl | rfl : i = 0 ∨ i = 1 ∨ i = 2 := by omega
    · rw [busy, busy']
    · rw [done, done']
    · rw [err, err']
  · simp only [State.statusWith_eq, BitVec.getLsbD_append, low, if_false]

/-- What a read of STATUS returns: VALID is exact while BUSY = 0 and free while BUSY = 1 (R30, R89). -/
theorem busRead_status (s : State) :
    (busRead 0x08#8 s).1 = s.statusWith (if s.phase = .idle then s.valid else Config.freeBit s.draws) := by
  rw [show (0x08#8) = Reg.status.offset from rfl, busRead_offset, readReg]
  by_cases idle : s.phase = .idle <;> simp [State.busy, idle, State.statusWord]

theorem bit_busRead_status_zero (s : State) : bit (busRead 0x08#8 s).1 0 = s.busy := by
  rw [busRead_status]
  exact (s.getLsbD_statusWith_of_lt _ (by decide)).trans (s.getLsbD_flags _).1

/-- Settles O40: the four flags, the code above them, and zeros. -/
theorem statusReadsItsFields : Obligations.StatusReadsItsFields := by
  intro s w
  have word : w = s.statusWith (if s.phase = .idle then bit s.dp.result 22 else Config.freeBit s.draws) :=
    busRead_status s
  generalize (if s.phase = .idle then bit s.dp.result 22 else Config.freeBit s.draws) = valid at word ⊢
  obtain ⟨busy, done, err, valid_bit⟩ := s.getLsbD_flags valid
  have flag {i : Nat} (i_lt : i < 4) : bit w i = (s.flags valid).getLsbD i :=
    word ▸ s.getLsbD_statusWith_of_lt valid i_lt
  refine ⟨(flag (by decide)).trans busy, (flag (by decide)).trans done, (flag (by decide)).trans err,
    (flag (by decide)).trans valid_bit, ?_, ?_⟩
  · calc w.extractLsb' 4 4 = (s.errcode.bits ++ s.flags valid).extractLsb' 4 4 := by
          rw [word, s.statusWith_eq, BitVec.extractLsb'_append_eq_of_add_le (by decide)]
      _ = s.errcode.bits := BitVec.extractLsb'_append_eq_left
  · rw [word, s.statusWith_eq, BitVec.extractLsb'_append_eq_left]

/-! ### Reads while BUSY = 0 -/

/-- A value narrower than the bus is extended with zeros (R11). -/
theorem zero_append_eq_setWidth {w k : Nat} (x : BitVec w) : 0#k ++ x = x.setWidth (k + w) := by
  rw [BitVec.setWidth_eq_append (by omega)]
  simp

theorem toNat_setWidth_lt {w : Nat} (x : BitVec w) (n : Nat) : (x.setWidth n).toNat < 2 ^ w := by
  rw [BitVec.toNat_setWidth]
  exact (Nat.mod_le _ _).trans_lt x.isLt

theorem readReg_of_idle {s : State} (idle : s.phase = .idle) {reg : Reg}
    (datapath : reg ≠ .id ∧ reg ≠ .ctrl ∧ reg ≠ .status ∧ reg ≠ .cmd) : readReg reg s = (s.dp.word reg, s) := by
  cases reg with
  | id | ctrl | status | cmd => simp at datapath
  | _ => simp [readReg, State.busy, idle]

theorem readReg_status_of_idle {s : State} (idle : s.phase = .idle) : readReg .status s = (s.statusWord, s) := by
  simp [readReg, State.busy, idle]

/-- The width column of R10 holds of every word read while BUSY = 0. -/
theorem readReg_lt_of_idle {s : State} (idle : s.phase = .idle) (reg : Reg) :
    (readReg reg s).1.toNat < 2 ^ reg.width := by
  cases reg with
  | id | cmd | in0 | in1 | pt0 | tlo => exact BitVec.isLt _
  | ctrl => exact toNat_setWidth_lt _ _
  | status =>
    rw [readReg_status_of_idle idle, State.statusWord, State.statusWith_eq, zero_append_eq_setWidth]
    exact toNat_setWidth_lt _ _
  | _ =>
    rw [readReg_of_idle idle (by simp)]
    exact toNat_setWidth_lt _ _

/-- Settles O39: each register's word, and no register's word above its width. -/
theorem idleReadsAreExactAndPure : Obligations.IdleReadsAreExactAndPure := by
  intro s idle
  refine ⟨fun reg => ?_, fun addr => ⟨busRead_state_of_idle addr idle, fun reg at_reg => ?_⟩⟩
  · rw [busRead_offset]
    cases reg with
    | id | cmd => rfl
    | ctrl =>
      dsimp only [readReg, State.ctrlWord]
      exact (zero_append_eq_setWidth _).symm
    | status => rw [readReg_status_of_idle idle]
    | in0 | in1 | pt0 | tlo => rw [readReg_of_idle idle (by simp), Datapath.word]
    | _ =>
      rw [readReg_of_idle idle (by simp)]
      dsimp only [Datapath.word]
      exact (zero_append_eq_setWidth _).symm
  · rw [busRead, at_reg]
    exact readReg_lt_of_idle idle reg

/-! ### Reads while BUSY = 1 -/

/-- The words 7 to 20 of the register space are the registers hidden while BUSY = 1 (R89). -/
theorem exists_hidden_of_addr {addr : BitVec 8} (from_result : 0x1C ≤ addr.toNat) (to_pbox : addr.toNat < 0x54) :
    ∃ reg, regAt addr = some reg ∧ reg.hiddenWhileBusy = true := by
  have word_lo : 7 ≤ (addr >>> 2).toNat := by
    rw [BitVec.toNat_ushiftRight, Nat.shiftRight_eq_div_pow]
    omega
  have word_hi : (addr >>> 2).toNat ≤ 20 := by
    rw [BitVec.toNat_ushiftRight, Nat.shiftRight_eq_div_pow]
    omega
  unfold regAt
  generalize (addr >>> 2).toNat = word at word_lo word_hi
  interval_cases word <;> exact ⟨_, rfl, rfl⟩

theorem readReg_of_hidden {s : State} (running : s.phase ≠ .idle) {reg : Reg} (hidden : reg.hiddenWhileBusy = true) :
    readReg reg s = (Config.freeWord s.draws, s.drawn) := by
  cases reg with
  | id | ctrl | status | cmd | in0 | in1 | in2 => exact nomatch hidden
  | _ => simp [readReg, State.busy, running, Reg.hiddenWhileBusy]

/-- The input buffer is readable whatever BUSY is (R30). -/
theorem readReg_of_input (s : State) {reg : Reg} (input : reg = .in0 ∨ reg = .in1 ∨ reg = .in2) :
    readReg reg s = (s.dp.word reg, s) := by
  obtain rfl | rfl | rfl := input <;> simp [readReg, Reg.hiddenWhileBusy]

theorem readReg_status_of_not_idle {s : State} (running : s.phase ≠ .idle) :
    readReg .status s = (s.statusWith (Config.freeBit s.draws), s.drawn) := by
  simp [readReg, State.busy, running]

/-- Settles O45: each read by the register its offset names; a hidden register's and STATUS's draw a value. -/
theorem busyReadsAreFreeOrExact : Obligations.BusyReadsAreFreeOrExact := by
  intro s running
  refine ⟨fun addr from_result to_pbox => ?_, busRead_offset .id s, ?_,
    (busRead_offset .in0 s).trans (readReg_of_input s (by simp)),
    (busRead_offset .in1 s).trans (readReg_of_input s (by simp)), ?_,
    ⟨s.statusWith (Config.freeBit s.draws), ?_, ?_, fun i i_ne => ?_⟩,
    fun addr reserved => busRead_of_regAt_none ((regAt_eq_none_iff addr).mpr reserved) s⟩
  · obtain ⟨reg, at_reg, hidden⟩ := exists_hidden_of_addr from_result to_pbox
    rw [busRead, at_reg]
    exact readReg_of_hidden running hidden
  · rw [← s.ctrlWord_eq]
    exact busRead_offset .ctrl s
  · rw [zero_append_eq_setWidth]
    exact (busRead_offset .in2 s).trans (readReg_of_input s (by simp))
  · exact (busRead_offset .status s).trans (readReg_status_of_not_idle running)
  · obtain ⟨-, -, -, valid⟩ := s.getLsbD_flags (Config.freeBit s.draws)
    exact (s.getLsbD_statusWith_of_lt _ (by decide)).trans valid
  · exact s.getLsbD_statusWith_congr _ _ i_ne

end Sys2Proof.Machine
end

