-- ==== Sys2Proof/Proofs/PortWrites.lean ====
section
/-! The obligations on bus writes: the registers that a write stores into (spec/10_state.md rules R11, R12 and R22), the
acknowledge (R14), and what is dropped while BUSY = 1 (20_memory.md rule R31, 60_exceptions.md rules R75 and R76). -/

namespace Sys2Proof.Machine

open Sys2Proof

/-- Settles O8: `raiseCmdError` takes the code only from a state with ERR = 0. -/
theorem firstErrorCodeIsKept : Obligations.FirstErrorCodeIsKept := by
  intro s c c'
  refine ⟨fun clear => ?_, fun set => ?_, rfl⟩
  · rw [State.raiseCmdError, clear]
    rfl
  · cases s
    cases set
    rfl

/-- Settles O38: a write to a read-only register has no rule, and ID and CMD have no storage. -/
theorem readOnlyRegistersIgnoreWrites : Obligations.ReadOnlyRegistersIgnoreWrites := fun s v =>
  ⟨busWrite_offset .id v s, busWrite_offset .result v s, busWrite_offset .grp v s, busRead_offset .id s,
    busRead_offset .cmd s⟩

/-- Settles O41: the acknowledge of bit 1 and that of bit 2. -/
theorem statusWritesAcknowledge : Obligations.StatusWritesAcknowledge := by
  intro s v
  refine ⟨_, _, _, busWrite_offset .status v s, ?_⟩
  cases bit v 1 <;> cases bit v 2 <;> simp

theorem writeReg_of_datapathRW (par : Params) {reg : Reg} (rw_reg : reg ∈ Reg.datapathRW) (v : Word) (s : State) :
    writeReg par reg v s =
      .next (if s.busy then s.raiseCmdError .busy else { s with dp := s.dp.store reg v }) := by
  cases reg with
  | id | ctrl | status | cmd | result | grp => simp [Reg.datapathRW] at rw_reg
  | _ => rfl

theorem busWrite_of_idle {s : State} (idle : s.phase = .idle) {reg : Reg} (rw_reg : reg ∈ Reg.datapathRW) (v : Word) :
    busWrite reg.offset v s = .next { s with dp := s.dp.store reg v } := by
  rw [busWrite_offset, writeReg_of_datapathRW _ rw_reg, s.busy_eq_false_iff.mpr idle]
  rfl

/-- Settles O44: the write of a register or of a command meets the BUSY check first. -/
theorem busyWritesAreDropped : Obligations.BusyWritesAreDropped := by
  intro s running
  refine ⟨fun reg v guarded => ?_, exec_of_not_idle running⟩
  obtain rfl | rw_reg := guarded
  · exact busWrite_cmd_of_not_idle running v
  · rw [busWrite_offset, writeReg_of_datapathRW _ rw_reg, s.busy_eq_true_iff.mpr running, if_pos rfl,
      s.raiseCmdError_eq_withError]

/-- A stored register reads back cut to its width (R11). -/
theorem Datapath.word_store_self (d : Datapath) {reg : Reg} (rw_reg : reg ∈ Reg.datapathRW) (not_round : reg ≠ .round)
    (v : Word) : (d.store reg v).word reg = (v.setWidth reg.width).setWidth 32 := by
  cases reg with
  | id | ctrl | status | cmd | result | grp => simp [Reg.datapathRW] at rw_reg
  | round => exact absurd rfl not_round
  | in0 | in1 | pt0 | tlo => simp [Datapath.store, Datapath.word, Reg.width]
  | _ => rfl

/-- A store changes the word of one register (R11). -/
theorem Datapath.word_store_of_ne (d : Datapath) {reg q : Reg} (not_round : reg ≠ .round) (v : Word) (other : q ≠ reg) :
    (d.store reg v).word q = d.word q := by
  cases reg with
  | id | ctrl | status | cmd | result | grp => rfl
  | round => exact absurd rfl not_round
  | _ => cases q <;> simp [Datapath.store, Datapath.word] at other ⊢

/-- Outside a DECODE a read is told by the word of its register, by RESULT for VALID, and by no other register of the
datapath (R30). -/
theorem readReg_word_congr {s : State} (idle : s.phase = .idle) {d : Datapath} {q : Reg} (word : d.word q = s.dp.word q)
    (result : d.result = s.dp.result) : (readReg q { s with dp := d }).1 = (readReg q s).1 := by
  have idle_d : ({ s with dp := d } : State).phase = .idle := idle
  cases q with
  | id | ctrl | cmd => rfl
  | status =>
    rw [readReg_status_of_idle idle, readReg_status_of_idle idle_d, State.statusWord, State.valid, result]
    rfl
  | _ => rw [readReg_of_idle idle (by simp), readReg_of_idle idle_d (by simp), word]

/-- Settles O36: the store by its own word and by the others'. -/
theorem registerWritesReadBack : Obligations.RegisterWritesReadBack := by
  intro s reg v idle rw_reg not_round
  refine ⟨s.dp.store reg v, busWrite_of_idle idle rw_reg v, ?_, fun q other => ?_⟩
  · have datapath : reg ≠ .id ∧ reg ≠ .ctrl ∧ reg ≠ .status ∧ reg ≠ .cmd := by
      refine ⟨?_, ?_, ?_, ?_⟩ <;> rintro rfl <;> simp [Reg.datapathRW] at rw_reg
    rw [busRead_offset, readReg_of_idle (s := { s with dp := s.dp.store reg v }) idle datapath,
      s.dp.word_store_self rw_reg not_round]
  · rw [busRead_offset, busRead_offset]
    exact readReg_word_congr idle (s.dp.word_store_of_ne not_round v other) (Datapath.store_result _ _ _)

/-- Settles O37: the two cases of a ROUND write. -/
theorem roundIsWriteAnyReadLegal : Obligations.RoundIsWriteAnyReadLegal := by
  intro s v idle
  have write : busWrite 0x38#8 v s = .next { s with dp := s.dp.storeRound v } :=
    busWrite_of_idle (reg := .round) idle (by decide) v
  have low_bits : (v.setWidth 5).toNat = v.toNat % 32 := BitVec.toNat_setWidth 5 v
  have stored : v.setWidth 5 = BitVec.ofNat 5 (v.toNat % 32) := by
    rw [← low_bits, BitVec.ofNat_toNat, BitVec.setWidth_eq]
  rw [write, Datapath.storeRound, low_bits, stored]
  exact ⟨fun legal => by rw [if_pos legal], fun above => by rw [if_neg (by omega)]⟩

end Sys2Proof.Machine
end

