-- ==== Sys2Proof/Proofs/CycleOrder.lean ====
section
/-! The obligations on one cycle: its write (spec/20_memory.md rule R29), its access before its engine step
(60_exceptions.md rule R81), and WAIT (30_encoding.md rule R46). -/

namespace Sys2Proof.Machine

open Sys2Proof

theorem State.fetch_of_pins {s : State} {p : PortPins} {rest : List HostItem} (item : s.host = .pins p :: rest) :
    s.fetch = { s with host := rest, pace := s.pace.tail, rdata := 0#32 } := by
  rw [State.fetch, State.hostAfter, item]
  rfl

theorem State.engineReady_of_idle {s : State} (idle : s.phase = .idle) : s.engineReady = false := by
  rw [State.engineReady, s.busy_eq_false_iff.mpr idle, Bool.false_and]

theorem State.engineReady_of_not_idle {s : State} (running : s.phase ≠ .idle) : s.engineReady = s.pace.headD true := by
  rw [State.engineReady, s.busy_eq_true_iff.mpr running, Bool.true_and]

theorem busAccess_write (par : Params) {p : PortPins} (sel : p.sel = true) (we : p.we = true) (s : State) :
    busAccess par p s = busWriteWith par p.addr p.wdata s := by
  rw [busAccess, if_pos sel, if_pos we]

theorem busAccess_read (par : Params) {p : PortPins} (sel : p.sel = true) (we : p.we = false) (s : State) :
    busAccess par p s = .next (s.readOut p.addr) := by
  rw [busAccess, if_pos sel, we]
  rfl

/-- Settles O46: the access is the write, and the engine's step follows if it is ready. -/
theorem stepRunsTheDecodedCommand : Obligations.StepRunsTheDecodedCommand := by
  intro s p rest item rst sel we s'
  have fetch : s.fetch = s' := State.fetch_of_pins item
  have pins := State.nextPins_of_pins item
  obtain ⟨t, access, cycle⟩ := step_of_running (by rw [pins, rst])
  rw [pins, fetch, busAccess_write _ sel we] at access
  change busWrite p.addr p.wdata s' = .next t at access
  refine ⟨fun idle => ?_, fun running => ⟨t, access, ?_⟩, fun i at_cmd decoded => ?_⟩
  · rw [cycle, State.engineReady_of_idle idle, access]
    rfl
  · rw [cycle, State.engineReady_of_not_idle running]
  · have cmd := (lowAddressBitsAreIgnored s' p.addr 0x0C#8 p.wdata at_cmd).2
    rw [cmd, busWrite_cmd, decoded]

/-- The moves of the host, the pace and `rdata` are nothing that a read shows (R30). -/
theorem busRead_fetch (addr : BitVec 8) (s : State) : (busRead addr s.fetch).1 = (busRead addr s).1 := by
  unfold busRead
  cases regAt addr with
  | none => rfl
  | some reg =>
    cases reg with
    | id | ctrl | cmd => rfl
    | _ =>
      simp only [readReg, apply_ite Prod.fst]
      rfl

/-- A cycle outside reset with its access taken apart: what the access does, and the engine's step after it. -/
theorem step_of_access {s t : State} (rst : s.nextPins.rstN = true) (next : step s = .next t) :
    ∃ u, busAccess Config.params s.nextPins s.fetch = .next u ∧ t.rdata = u.rdata ∧ t.host = s.hostAfter ∧
      (s.engineReady = true → t = u.stepped Config.params) := by
  obtain ⟨u, access, cycle⟩ := step_of_running rst
  obtain ⟨host, -, -⟩ := (accessEffect_of_busAccess access).keeps_schedule
  rw [cycle] at next
  cases ready : s.engineReady with
  | true =>
    rw [ready, if_pos rfl] at next
    obtain rfl := eq_stepped_of_engineStepWith next
    exact ⟨u, access, rfl, host, fun _ => rfl⟩
  | false =>
    rw [ready] at next
    cases next
    exact ⟨t, access, rfl, host, nofun⟩

/-- A cycle with a read ends with the word read on `rdata` (R29). -/
theorem rdata_of_read {s t : State} (rst : s.nextPins.rstN = true) (next : step s = .next t)
    (sel : s.nextPins.sel = true) (we : s.nextPins.we = false) : t.rdata = (busRead s.nextPins.addr s).1 := by
  obtain ⟨u, access, rdata, -⟩ := step_of_access rst next
  rw [busAccess_read _ sel we] at access
  cases access
  exact rdata.trans (busRead_fetch _ s)

/-- A cycle without a read ends with `rdata` at 0 (R29). -/
theorem rdata_of_no_read {s t : State} (rst : s.nextPins.rstN = true) (next : step s = .next t)
    (no_read : s.nextPins.sel = false ∨ s.nextPins.we = true) : t.rdata = 0 := by
  obtain ⟨u, access, rdata, -⟩ := step_of_access rst next
  exact rdata.trans ((accessEffect_of_busAccess access).keeps_rdata no_read)

/-- Whatever the access, the engine's step in PHASE = CHECK ends the DECODE and sets DONE (R81). -/
theorem done_of_last_step {s t : State} (rst : s.nextPins.rstN = true) (next : step s = .next t)
    (check : s.phase = .check) (ready : s.engineReady = true) : t.done = true ∧ t.phase = .idle := by
  obtain ⟨u, access, -, -, stepped⟩ := step_of_access rst next
  have running : s.phase ≠ .idle := State.phase_ne_idle_of_engineReady ready
  have check_u : u.phase = .check :=
    ((accessEffect_of_busAccess access).keeps_engine (s := s.fetch) running).2.trans check
  rw [stepped ready, State.stepped, check_u]
  exact ⟨rfl, rfl⟩

/-- Settles O47: `rdata` by the kind of access, and the last step of a DECODE. -/
theorem accessComesBeforeTheEngineStep : Obligations.AccessComesBeforeTheEngineStep := by
  intro s t p rest item rst next
  obtain rfl : s.nextPins = p := State.nextPins_of_pins item
  refine ⟨rdata_of_read rst next, rdata_of_no_read rst next, fun sel we at_status check => ?_, fun check moves => ?_⟩
  · rw [rdata_of_read rst next sel we, (lowAddressBitsAreIgnored s _ 0x08#8 0 at_status).1, bit_busRead_status_zero,
      State.busy, check]
    rfl
  · have running : s.phase ≠ .idle := by rw [check]; exact nofun
    exact done_of_last_step rst next check ((State.engineReady_of_not_idle running).trans moves)

/-- Settles O50: WAIT's cycle is a read of STATUS, whose bit 0 is BUSY. -/
theorem waitPollsUntilIdle : Obligations.WaitPollsUntilIdle := by
  intro s t rest item next
  have pins : s.nextPins = readPins 0x08#8 := by
    rw [State.nextPins, item]
    rfl
  have rst : s.nextPins.rstN = true := by rw [pins]; rfl
  have rdata := rdata_of_read rst next (by rw [pins]; rfl) (by rw [pins]; rfl)
  obtain ⟨-, -, -, host, -⟩ := step_of_access rst next
  rw [State.hostAfter, item] at host
  rw [pins] at rdata
  change t.rdata = (busRead 0x08#8 s).1 at rdata
  refine ⟨rdata, ?_⟩
  rw [rdata, bit_busRead_status_zero, host]
  exact ⟨fun busy => if_pos busy, fun idle => if_neg (by simp [idle])⟩

end Sys2Proof.Machine
end

