-- ==== Sys2Proof/Proofs/ParametersFamily.lean ====
section
/-! The obligations on ROTI (spec/41_round_engine.md rule R54), on the start of a DECODE (44_control.md rule R69), and
on other tables and parameters (00_scope.md rule R5, 95_test_vectors.md). -/

namespace Sys2Proof.Machine

open Sys2Proof

/-- Settles O15: the rotation by the operand, with no check of ROUND. -/
theorem rotiTurnsBothRingsByCnt : Obligations.RotiTurnsBothRingsByCnt := by
  refine ⟨by decide, fun s n idle => ?_⟩
  rw [← Datapath.rotateBy_eq_turn]
  exact State.command_of_idle idle (Datapath.rotateBy Config.params n.toNat)

/-- Settles O26: the acceptance of DECODE has no check of ROUND. -/
theorem decodeStartsTheEngine : Obligations.DecodeStartsTheEngine :=
  ⟨rfl, fun _ idle => ⟨State.decodeCommand_of_idle idle, rfl⟩⟩

/-! ### The zero tables -/

theorem ofFnLE_false (n : Nat) : BitVec.ofFnLE (fun _ : Fin n => false) = 0#n := by
  apply BitVec.eq_of_getLsbD_eq
  intro i i_lt
  rw [getLsbD_ofFnLE_fin _ ⟨i, i_lt⟩, BitVec.getLsbD_zero]

/-- No value meets the mask 0. -/
theorem meets_zero_mask {w : Nat} (v : BitVec w) : ((v &&& 0#w) != 0#w) = false := by
  rw [BitVec.and_zero, bne_self_eq_false]

/-- The zero table set Z (95_test_vectors.md). -/
def zeroTables : Tables where
  exp := Vector.replicate 10 0
  cmpLo := Vector.replicate 30 0
  cmpHi := Vector.replicate 30 0
  perm := Vector.replicate 20 0
  sb1 := Vector.replicate 64 0
  sb2 := Vector.replicate 64 0
  sb3 := Vector.replicate 64 0

theorem expandR_zeroTables (r : BitVec 24) : expandR zeroTables r = 0#10 ++ r.extractLsb' 0 20 := by
  have no_mask (i : Fin 10) : ((r.setWidth 20).setWidth 32 &&& zeroTables.exp.get i != 0#32) = false := by
    rw [zeroTables, Vector.get_replicate]
    exact meets_zero_mask _
  rw [expandR, funext no_mask, ofFnLE_false, BitVec.setWidth_eq_extractLsb' (by decide)]

theorem compressKey_zeroTables (lo : BitVec 32) (hi : BitVec 8) : compressKey zeroTables lo hi = 0#30 := by
  have no_mask (i : Fin 30) :
      ((lo &&& zeroTables.cmpLo.get i != 0#32) || (hi &&& zeroTables.cmpHi.get i != 0#8)) = false := by
    rw [zeroTables, Vector.get_replicate, Vector.get_replicate]
    exact Bool.or_eq_false_iff.mpr ⟨meets_zero_mask lo, meets_zero_mask hi⟩
  rw [compressKey, funext no_mask, ofFnLE_false]

theorem permuteBits_zeroTables (x : BitVec 20) : permuteBits zeroTables x = 0xF00000#24 := by
  have no_mask (i : Fin 20) : (x.setWidth 32 &&& zeroTables.perm.get i != 0#32) = false := by
    rw [zeroTables, Vector.get_replicate]
    exact meets_zero_mask _
  rw [permuteBits, funext no_mask, ofFnLE_false]
  rfl

/-- Whatever field a lookup reads, in either field order, the entry is 0. -/
theorem substituteGroups_zeroTables {p : Params} (zero : p.tables = zeroTables) (g : BitVec 30) :
    substituteGroups p g = 0#20 := by
  have entry (x : BitVec 6) : sboxEntry (Vector.replicate 64 0) x = 0 := Vector.get_replicate _ _ _
  simp only [substituteGroups, zero, zeroTables, entry]
  rfl

/-- Settles O27: each table's use with every entry 0. -/
theorem zeroTablesAreInert : Obligations.ZeroTablesAreInert := by
  intro p zero
  change p.tables = zeroTables at zero
  refine ⟨?_, ?_, substituteGroups_zeroTables zero, ?_⟩ <;> rw [zero]
  · exact expandR_zeroTables
  · exact compressKey_zeroTables
  · exact permuteBits_zeroTables

/-! ### Other parameters -/

/-- With ROT_BIT20_MODE = OR ring A takes in bit 20 too (R50). -/
theorem getLsbD_rotStep_or_lo (t : BitVec 32 × BitVec 8) (i : Nat) :
    (rotStep .or t).1.getLsbD i =
      if i = 31 then t.2.getLsbD 0 else if i = 19 then (t.1.getLsbD 20 || t.1.getLsbD 0) else t.1.getLsbD (i + 1) := by
  have shifted : (writeBit t.1 20 (bit t.1 20 || bit t.1 0) >>> 1).getLsbD i =
      if i = 19 then (t.1.getLsbD 20 || t.1.getLsbD 0) else t.1.getLsbD (i + 1) := by
    rw [BitVec.getLsbD_ushiftRight, getLsbD_writeBit, Nat.add_comm 1]
    exact if_congr (by omega) rfl rfl
  rw [← shifted, rotStep, getLsbD_writeBit]
  exact if_congr (by omega) rfl rfl

/-- ROT_BIT20_MODE is about TLO alone: THI moves as it does with COPY (R50). -/
theorem getLsbD_rotStep_or_hi (t : BitVec 32 × BitVec 8) (i : Nat) :
    (rotStep .or t).2.getLsbD i = if i = 7 then t.1.getLsbD 20 else t.2.getLsbD (i + 1) :=
  getLsbD_rotStep_copy_hi t i

/-- ROT is ROTI by the amount of its round (R52, R53). -/
theorem execWith_rot_eq_roti {par : Params} {s : State} (idle : s.phase = .idle) (nonzero : s.dp.round ≠ 0) :
    execWith par .rot s = execWith par (.roti (if s.dp.round ∈ par.doubleRotRounds then 2 else 1)) s := by
  have amount : rotAmount par s.dp.round =
      (if s.dp.round ∈ par.doubleRotRounds then 2 else 1 : BitVec 2).toNat := by
    rw [rotAmount]
    split <;> rfl
  rw [execWith_of_passes (i := .rot) idle (fun _ => nonzero) nofun nofun,
    execWith_of_passes (i := .roti _) idle (by simp [needsRound]) nofun nofun, commandRule, commandRule, Datapath.rot,
    amount]

/-- In ASCENDING order lookup k reads field k − 1 (R62). -/
theorem lookupEntry_ascending {par : Params} (order : par.sboxFieldOrder = .ascending) (g : BitVec 30)
    (table : Vector Byte 64) (k : Nat) :
    lookupEntry par g table k = table.get (g.extractLsb' (6 * (k - 1)) 6).toFin := by
  rw [lookupEntry, order]
  rfl

/-- CHECK by the bits of PT0 and PT1 (R67). -/
theorem Datapath.check_result_eq (p : Params) (d : Datapath) :
    (d.check p).result = if d.pt0.extractLsb' 4 16 = p.checkConst
      then (0#2 ++ d.pt0.extractLsb' 0 2 ++ d.pt1 ++ d.pt0.extractLsb' 20 12) ||| p.successFlag
      else p.failSentinel := by
  rw [Datapath.check_result, checkPlaintext_eq, checksum_plaintext, payload_plaintext]
  simp only [BitVec.append_assoc, BitVec.cast_eq]

/-- Settles O60: each parameter in the rule that takes it. -/
theorem parametersHaveTheirMeaning : Obligations.ParametersHaveTheirMeaning := by
  refine ⟨execWith_params, ?_, fun par s idle =>
    ⟨fun t turned => turned ▸ ?_, execWith_rot_eq_roti idle, fun order => ?_, ?_⟩⟩
  · intro lo hi t
    have lo_bit : ∀ i, bit t.1 i = _ := getLsbD_rotStep_or_lo (lo, hi)
    have hi_bit : ∀ i, bit t.2 i = _ := getLsbD_rotStep_or_hi (lo, hi)
    refine ⟨lo_bit 19, fun i i_le i_ne => ?_, lo_bit 31, fun i i_le => ?_, hi_bit 7⟩
    · rw [lo_bit, if_neg (by omega), if_neg i_ne]
    · rw [hi_bit, if_neg (by omega)]
  · exact State.command_of_idle idle (Datapath.rotateBy par 1)
  · refine ⟨regroup s.dp.mix, substituteGroups par (regroup s.dp.mix), State.command_of_idle idle _, rfl,
      fun b b_lt => ?_⟩
    have lookups := getLsbD_substituteGroups par (regroup s.dp.mix) b_lt
    simp only [lookupEntry_ascending order] at lookups
    exact lookups
  · refine ⟨(s.dp.check par).result, State.command_of_idle idle (Datapath.check par), ?_⟩
    rw [Datapath.check_result_eq]
    exact ⟨fun failed => if_neg failed, fun passed => if_pos passed⟩

end Sys2Proof.Machine
end
